-- ==== Sys2Proof/Word.lean ====
section
/-! DEFINITION. The word types (spec/00_scope.md R11): every value is unsigned; bytes are 8 bits, the CRC and
addresses 16 bits. -/

namespace Sys2Proof

/-- A byte: a register of the host window, a byte of the attached memory, a command opcode. -/
abbrev Byte := BitVec 8

/-- A 16-bit value: the CRC, the address operand, the failing address. -/
abbrev Half := BitVec 16

end Sys2Proof
end

