-- ==== Sys2Proof/Syntax.lean ====
section
/-! DEFINITION. The commands: one constructor per row of spec/opcode_table.json (spec/30_encoding.md R92, R93). -/

namespace Sys2Proof

/-- A command. Its operands are the operand registers at acceptance, never fields of the command word (R91). -/
inductive Instr where
  /-- 0x01, 40_crc.md R121 -/
  | crcCompute
  /-- 0x02, 41_log.md R150 -/
  | logAppend
  /-- 0x03, 41_log.md R151 -/
  | logErase
  /-- 0x04, 41_log.md R160 -/
  | logReadReset
  /-- 0x05, 41_log.md R161 -/
  | logReadNext
  /-- 0x06, 41_log.md R162 -/
  | logCheckSlot
  /-- 0x07, 41_log.md R152 -/
  | logFindFree
  /-- 0x08, 42_raw_memory.md R202 -/
  | memRead
  /-- 0x09, 42_raw_memory.md R203 -/
  | memWrite
  /-- 0x00 and 0x0A..0xFF, 42_raw_memory.md R204. The opcode is kept because CMD reads it back (10_state.md R22). -/
  | illegal (opcode : Byte)
  deriving DecidableEq, Repr

end Sys2Proof
end

