-- ==== Sys2Proof/WellFormed.lean ====
section
/-! DEFINITION. Which commands are well formed: `illegal` carries an opcode that spec/30_encoding.md R93 calls illegal. -/

namespace Sys2Proof

/-- OPCODE 0x00 and every OPCODE 0x0A to 0xFF (R93). -/
def reservedOpcode (op : Byte) : Bool := op == 0x00#8 || (0x0A#8).ule op

/-- The one check on a command: an `illegal` that carried one of the opcodes 0x01..0x09 would stand for no word. -/
def Instr.wellFormed : Instr → Bool
  | .crcCompute | .logAppend | .logErase | .logReadReset | .logReadNext => true
  | .logCheckSlot | .logFindFree | .memRead | .memWrite => true
  | .illegal op => reservedOpcode op

end Sys2Proof
end

