-- ==== Sys2Proof/Decode.lean ====
section
/-! DEFINITION. Decoding and encoding of command words (spec/30_encoding.md R90, R92, R93). -/

namespace Sys2Proof

/-- Why a byte sequence is no command. -/
inductive DecodeError where
  /-- A command is one byte (R90), and there is none. -/
  | noByte
  deriving DecidableEq, Repr

/-- The opcode map, read as R90 says: the whole byte is looked up. A byte that R92 does not list is the illegal command
that R93 gives it. -/
def decodeByte (op : Byte) : Instr :=
  match op.toNat with
  | 0x01 => .crcCompute
  | 0x02 => .logAppend
  | 0x03 => .logErase
  | 0x04 => .logReadReset
  | 0x05 => .logReadNext
  | 0x06 => .logCheckSlot
  | 0x07 => .logFindFree
  | 0x08 => .memRead
  | 0x09 => .memWrite
  | _ => .illegal op

/-- Decoding of any bytes: a command is the first byte, and the rest is handed back. -/
def decode : List Byte → Except DecodeError (Instr × List Byte)
  | [] => .error .noByte
  | op :: rest => .ok (decodeByte op, rest)

/-- The opcode of a command (R92): what the host writes to CMD, and what CMD reads back (10_state.md R22). -/
def Instr.opcode : Instr → Byte
  | .crcCompute => 0x01
  | .logAppend => 0x02
  | .logErase => 0x03
  | .logReadReset => 0x04
  | .logReadNext => 0x05
  | .logCheckSlot => 0x06
  | .logFindFree => 0x07
  | .memRead => 0x08
  | .memWrite => 0x09
  | .illegal op => op

/-- The word of a command: one byte, one field (R90). -/
def encode (i : Instr) : List Byte := [i.opcode]

/-- The command the decoder reads from an instruction of the opcode table whose bits are `w`. Every row is one byte, so a
value that needs more bits is no command word. -/
def decodeTableWord (nbits w : Nat) : Option Instr :=
  if nbits = 8 ∧ w < 256 then
    match decode [BitVec.ofNat 8 w] with
    | .ok (i, _) => some i
    | .error _ => none
  else none

end Sys2Proof
end

