-- ==== Sys2Proof/Config.lean ====
section
/-! DEFINITION. The parameters of spec/00_scope.md R6, R8 and R9, and the free values: constants with no body, so that
no proof can see what they are. -/

namespace Sys2Proof.Config

/-- `MEM_SIZE`: the attached memory has the byte addresses 0..32767 (R6, 20_memory.md R61). -/
@[simp] abbrev memSize : Nat := 32768

/-- `LOG_BASE` (R6). -/
@[simp] abbrev logBase : Nat := 0

/-- `SLOT_COUNT` (R6, R7). -/
@[simp] abbrev slotCount : Nat := 32

/-- `SLOT_SIZE` (R6, R7); also the size of BUF and of the block no transaction crosses (20_memory.md R69). -/
@[simp] abbrev slotSize : Nat := 64

/-- `LOG_SIZE` = `SLOT_COUNT * SLOT_SIZE` (R6). -/
@[simp] abbrev logSize : Nat := 2048

/-- `MAX_MSG` = `SLOT_SIZE - 3` (R6). -/
@[simp] abbrev maxMsg : Nat := 61

/-- `MIN_MSG` (R6). -/
@[simp] abbrev minMsg : Nat := 1

/-- Sequencer steps that are enough for any command from any position: one check, at most 65 transactions
(70_reset_and_hazards.md R275) and one completion. -/
@[simp] abbrev maxSteps : Nat := 67

/-- A CRC-16 convention without reflection (R9). -/
structure CrcVariant where
  poly   : Half
  init   : Half
  xorOut : Half
  deriving DecidableEq, Repr

/-- `CRC_VARIANT`, fixed by R9 to CRC-16/CCITT-FALSE. UNVERIFIED: the source leaves the variant open and the spec
chooses it from general knowledge (92_eei_decisions.md D2; log entry 9, unsafe). -/
def crcVariant : CrcVariant := { poly := 0x1021, init := 0xFFFF, xorOut := 0x0000 }

/-- `T_WC`, the write-cycle settle time, in the model's units of time: open (R8). Log entry 5, safe. -/
opaque tWc : Nat

/-- `MEM_INIT`, the contents of the attached memory before the block first writes it: open (R8, 20_memory.md R62).
Log entry 4, safe. -/
opaque memInit : Nat → Byte

/-- `IO_FAIL`: whether the transaction that makes draw number `k` fails: open, under no law (R8, 20_memory.md R67).
Log entry 2, safe. -/
opaque ioFail : Nat → Bool

/-- What byte `j` of the range of a failed or cut write holds, when that write makes draw number `k`: any value, each
byte independently (20_memory.md R67). Log entry 3, safe. -/
opaque tornByte : Nat → Nat → Byte

end Sys2Proof.Config
end

