-- ==== Sys2Proof/Machine/State.lean ====
section
/-! DEFINITION. The state of the machine as plain data: the register window and the hidden state of spec/10_state.md,
the attached memory of spec/20_memory.md, and the world outside the block that the step reads. -/

namespace Sys2Proof.Machine

/-- The error codes of 60_exceptions.md R221; no other value is ever written to ERR (10_state.md R24). -/
inductive ErrorCode where
  /-- 0x00 -/
  | none
  /-- 0x01: LOG_APPEND with an illegal message -/
  | invalidEntry
  /-- 0x02: a memory transaction failed -/
  | ioError
  /-- 0x03: illegal opcode -/
  | illegalCmd
  /-- 0x04: an operand out of range -/
  | badParam
  deriving DecidableEq, Repr

/-- The 64-byte data buffer BUF (10_state.md R32). -/
abbrev Buffer := Vector Byte 64

/-- A slot index, 0..31 (41_log.md R141). -/
abbrev SlotIndex := Fin 32

/-- What CURSOR and RSLT hold: 0..32 (10_state.md R29, R31). -/
abbrev SlotCount := Fin 33

/-- What the registers of the host window hold (10_state.md R21). STATUS.BUSY is not among them: it is derived from
`State.seq` (R40). CRC, FADDR are held as 16-bit values and read as two bytes (R28, R30). -/
structure Regs where
  cmd     : Byte        -- R22
  done    : Bool        -- R23 bit 1
  valid   : Bool        -- R23 bit 2
  ended   : Bool        -- R23 bit 3, END
  full    : Bool        -- R23 bit 4
  errf    : Bool        -- R23 bit 5
  overrun : Bool        -- R23 bit 6
  err     : ErrorCode   -- R24
  len     : Byte        -- R25
  addrHi  : Byte        -- R26
  addrLo  : Byte        -- R26
  slot    : Byte        -- R27
  cursor  : SlotCount   -- R31
  crc     : Half        -- R28
  rslt    : SlotCount   -- R29
  faddr   : Half        -- R30
  buf     : Buffer      -- R32
  deriving DecidableEq, Repr

/-- The operands sampled at acceptance (10_state.md R40). -/
structure Operands where
  len    : Byte
  addr   : Half
  slot   : Byte
  buf    : Buffer
  cursor : SlotCount
  ended  : Bool
  deriving DecidableEq, Repr

/-- The staged results that a completion writes (10_state.md R35, R42): ERR, VALID and FULL always, the rest where the
command writes it (`none` is the table's "-", unchanged). -/
structure Staged where
  err    : ErrorCode := .none
  valid  : Bool := false
  full   : Bool := false
  ended  : Option Bool := .none
  cursor : Option SlotCount := .none
  len    : Option Byte := .none
  buf    : Option Buffer := .none
  crc    : Option Half := .none
  rslt   : Option SlotCount := .none
  faddr  : Option Half := .none
  deriving DecidableEq, Repr

/-- Where a running command stands in its pseudocode, with the loop index of a scan or an erase (10_state.md R40). -/
inductive Position where
  /-- The operand checks are next. -/
  | check
  /-- The scan of 41_log.md R144 reads slot `i` next. -/
  | scan (i : SlotIndex)
  /-- The full erase of 41_log.md R145 writes slot `i` next. -/
  | erase (i : SlotIndex)
  /-- LOG_APPEND writes its entry into slot `t` next; `wrapped` when the log was erased first. -/
  | entry (t : SlotIndex) (wrapped : Bool)
  /-- The 64 bytes of slot `i` are read next. -/
  | slot (i : SlotIndex)
  /-- The one transaction of MEM_READ or MEM_WRITE is next. -/
  | raw
  /-- Nothing is left but the completion, which writes these results. -/
  | complete (g : Staged)
  deriving DecidableEq, Repr

/-- A command that has been accepted and has not completed (10_state.md R40). -/
structure Command where
  instr : Instr
  ops   : Operands
  pos   : Position
  deriving DecidableEq, Repr

/-- The sequencer state `seq` (10_state.md R40). -/
inductive Seq where
  | idle
  | busy (c : Command)
  deriving DecidableEq, Repr

/-- The contents of the attached memory where the block has written nothing (20_memory.md R62). -/
inductive MemInit where
  /-- Any contents: the constant `Config.memInit`, which has no body. -/
  | free
  /-- A part that holds the same byte everywhere, such as the start state of program P1 in 95_test_vectors.md. -/
  | filled (b : Byte)
  deriving DecidableEq, Repr

/-- The attached memory `M` (10_state.md R44): the cells that differ from the initial contents, addresses rising. -/
structure Memory where
  init  : MemInit
  cells : List Host.Cell
  deriving DecidableEq, Repr

/-- What the attached memory answers to one transaction (20_memory.md R67). -/
inductive Answer where
  | ok
  | fail
  deriving DecidableEq, Repr

/-- One thing the world outside does next. Any order of the single ones is an order of 60_exceptions.md R226. -/
inductive Input where
  /-- The host reads the window offset (10_state.md R20). -/
  | read (off : Byte)
  /-- The host writes the window offset (10_state.md R20). -/
  | write (off v : Byte)
  /-- The host writes `op` to CMD and, if that starts a command, makes no access until it has completed: `CMD op` and
  `WAIT` together (30_encoding.md R111, `RUN`). -/
  | run (op : Byte)
  /-- The host makes no access until the running command has completed (30_encoding.md R110, `WAIT`). -/
  | finish
  /-- The sequencer takes its next step, if it may (10_state.md R43). -/
  | advance
  /-- One unit of time passes (10_state.md R43). -/
  | tick
  /-- Reset (70_reset_and_hazards.md R260); `cutting` when it comes in the middle of the transaction that the sequencer
  would issue next (R262). -/
  | reset (cutting : Bool)
  deriving DecidableEq, Repr

/-- The whole machine. The fields from `answers` on are the model's own: they hold what comes from outside the block
(log entries 1, 2, 7). -/
structure State where
  regs    : Regs
  seq     : Seq
  twc     : Nat
  mem     : Memory
  tWc     : Nat
  answers : List Answer
  draws   : Nat
  inputs  : List Input
  rdata   : Option Byte
  deriving DecidableEq, Repr

/-- Why the machine stops with a fault: never. The block takes no trap (60_exceptions.md R220), every command reaches its
completion (70_reset_and_hazards.md R275) and every error is a code in ERR, so no constructor stands here and nothing
raises one. Log entry 17. -/
inductive Fault where
  deriving DecidableEq, Repr

/-- Why the machine refuses an instruction. -/
inductive Refusal where
  /-- Raised by `exec` alone, for an instruction with no meaning yet; no arm of `exec` answers it. Safe. -/
  | notModelled (mnemonic : String)
  deriving DecidableEq, Repr

/-- The register values of 10_state.md R47. -/
def Regs.reset : Regs where
  cmd := 0x00
  done := false
  valid := false
  ended := false
  full := false
  errf := false
  overrun := false
  err := .none
  len := 0x00
  addrHi := 0x00
  addrLo := 0x00
  slot := 0x00
  cursor := 0
  crc := 0x0000
  rslt := 0
  faddr := 0x0000
  buf := Vector.replicate 64 0x00

/-- The machine right after reset (10_state.md R47), with a memory whose contents are open (20_memory.md R62), an open
T_WC, and a world outside that has fixed nothing yet (DESIGN CHOICE, log entries 1, 2, 7). -/
def State.reset : State where
  regs := .reset
  seq := .idle
  twc := Config.tWc
  mem := { init := .free, cells := [] }
  tWc := Config.tWc
  answers := []
  draws := 0
  inputs := []
  rdata := .none

end Sys2Proof.Machine
end

