-- ==== Sys2Proof/Machine/Ops.lean ====
section
/-! DEFINITION. The named operations over memory and registers, and the steps that every command shares: acceptance,
a transaction, an error, a completion (spec/10_state.md R36 to R43, 20_memory.md R65 to R67, 60_exceptions.md R225). -/

namespace Sys2Proof.Machine

/-! ### Bytes of a 16-bit value -/

/-- Bits 15:8. -/
def hiByte (v : Half) : Byte := v.extractLsb' 8 8

/-- Bits 7:0. -/
def loByte (v : Half) : Byte := v.extractLsb' 0 8

/-! ### The attached memory -/

/-- What address `a` held before the block first wrote it (20_memory.md R62): the one place that says what an unlisted
address reads as. -/
def MemInit.at (m : MemInit) (a : Nat) : Byte :=
  match m with
  | .free => Config.memInit a
  | .filled b => b

/-- The byte listed at `a`, if one is. -/
def lookupCell (a : Nat) : List Host.Cell → Option Byte
  | [] => .none
  | (k, b) :: cs => if k = a then some b else lookupCell a cs

/-- `b` listed at `a`, the addresses still rising. -/
def insertCell (a : Nat) (b : Byte) : List Host.Cell → List Host.Cell
  | [] => [(a, b)]
  | (k, c) :: cs => if a < k then (a, b) :: (k, c) :: cs else if a = k then (a, b) :: cs else (k, c) :: insertCell a b cs

/-- Nothing listed at `a`. -/
def eraseCell (a : Nat) : List Host.Cell → List Host.Cell
  | [] => []
  | (k, c) :: cs => if k = a then eraseCell a cs else (k, c) :: eraseCell a cs

/-- `M[a]`. -/
def Memory.read (m : Memory) (a : Nat) : Byte := (lookupCell a m.cells).getD (m.init.at a)

/-- `M[a] <- b`. No byte stands outside 0..32767 (20_memory.md R61), so nothing is stored there; no transaction goes there
(log entry 12). -/
def Memory.write (m : Memory) (a : Nat) (b : Byte) : Memory :=
  if a < Config.memSize then
    { m with cells := if b = m.init.at a then eraseCell a m.cells else insertCell a b m.cells }
  else m

/-- `M[a .. a+n)`, in address order (20_memory.md R65). -/
def Memory.readBytes (m : Memory) (a n : Nat) : List Byte := (List.range n).map fun j => m.read (a + j)

/-- `M[a + j] <- v[j]` for every `j` (20_memory.md R66). -/
def Memory.writeBytes (m : Memory) (a : Nat) : List Byte → Memory
  | [] => m
  | b :: bs => (m.write a b).writeBytes (a + 1) bs

/-- The canonical form: addresses rising, every listed address exists, and no cell equal to what it would read as
unlisted. Equal memories are then equal data. -/
abbrev Memory.Canonical (m : Memory) : Prop :=
  m.cells.Pairwise (fun x y => x.1 < y.1) ∧ ∀ c ∈ m.cells, c.1 < Config.memSize ∧ c.2 ≠ m.init.at c.1

/-- `Memory.Canonical` as a Bool. -/
def Memory.wf (m : Memory) : Bool := decide m.Canonical

/-- The base address of slot `i` (20_memory.md R64). -/
def slotBase (i : Nat) : Nat := Config.slotSize * i

/-- The slot after `i`, if `i` is not the last. -/
def nextSlot (i : SlotIndex) : Option SlotIndex :=
  if h : i.val + 1 < 32 then some ⟨i.val + 1, h⟩ else .none

/-! ### BUF -/

/-- `BUF[0..len(d)) <- d`, the other bytes unchanged. -/
def loadBuffer (b : Buffer) (d : List Byte) : Buffer :=
  ⟨(d.take 64 ++ b.toList.drop (d.take 64).length).toArray, by simp⟩

/-! ### Draws: what the spec leaves open at run time -/

/-- Whether the transaction after `k` more draws fails (20_memory.md R67): what the memory's answer is where it is
already fixed, else the open draw `IO_FAIL`. -/
def State.failsAt (s : State) (k : Nat) : Bool :=
  match s.answers[k]? with
  | some a => a == .fail
  | .none => Config.ioFail (s.draws + k)

/-- One transaction has been answered. -/
def State.drawn (s : State) : State := { s with answers := s.answers.tail, draws := s.draws + 1 }

/-- `n` unspecified bytes (20_memory.md R67), those of draw number `d`. -/
def tornBytes (d n : Nat) : List Byte := (List.range n).map (Config.tornByte d)

/-! ### A command's life: acceptance, one action per step, completion -/

/-- `seq` ≠ IDLE, which is STATUS.BUSY (10_state.md R40). -/
def State.isBusy (s : State) : Bool :=
  match s.seq with
  | .idle => false
  | .busy _ => true

/-- `x[ADDR]` (10_state.md R26). -/
def Regs.addr (r : Regs) : Half := r.addrHi ++ r.addrLo

/-- The operands sampled at acceptance (10_state.md R40). -/
def Regs.sample (r : Regs) : Operands where
  len := r.len
  addr := r.addr
  slot := r.slot
  buf := r.buf
  cursor := r.cursor
  ended := r.ended

/-- Acceptance of a command (10_state.md R41). -/
def State.accept (i : Instr) (s : State) : State :=
  { s with
    regs := { s.regs with cmd := i.opcode, done := false }
    seq := .busy { instr := i, ops := s.regs.sample, pos := .check } }

/-- A host write that is dropped because a command runs: nothing but OVERRUN (10_state.md R36). -/
def State.dropWrite (s : State) : State := { s with regs := { s.regs with overrun := true } }

/-- The running command goes on at `p`. -/
def State.goto (c : Command) (p : Position) (s : State) : State := { s with seq := .busy { c with pos := p } }

/-- `raise E(a)`: the command's pseudocode ends, and its completion will write the error and nothing else
(00_scope.md R13, 60_exceptions.md R225): every other staged result is discarded. The one way any command fails. -/
def raise (e : ErrorCode) (a : Option Nat := .none) : Position :=
  .complete { err := e, faddr := a.map (BitVec.ofNat 16) }

/-- What a completion writes to the registers (10_state.md R35, R42; 60_exceptions.md R225). -/
def Regs.commit (r : Regs) (g : Staged) : Regs :=
  { r with
    done := true
    valid := g.valid
    full := g.full
    errf := decide (g.err ≠ .none)
    err := g.err
    ended := g.ended.getD r.ended
    cursor := g.cursor.getD r.cursor
    len := g.len.getD r.len
    buf := g.buf.getD r.buf
    crc := g.crc.getD r.crc
    rslt := g.rslt.getD r.rslt
    faddr := g.faddr.getD r.faddr }

/-- The completion step (10_state.md R42). After an error there is nothing to return from (60_exceptions.md R227): the
block is IDLE again, as after any completion. -/
def State.complete (g : Staged) (s : State) : State := { s with regs := s.regs.commit g, seq := .idle }

/-- What a sequencer step does: the checks lead to the next position, or one transaction is issued, or the command
completes (00_scope.md R14). Never a part of State. -/
inductive Action where
  | goto (p : Position)
  | read (a n : Nat) (andThen : List Byte → Position)
  | write (a : Nat) (v : List Byte) (andThen : Position)
  | complete (g : Staged)

/-- `MemRead(a, n)` for command `c` (20_memory.md R65, R67): a failed one raises `IoError(a)`. The timer is not loaded. -/
def State.readTransaction (c : Command) (a n : Nat) (andThen : List Byte → Position) (s : State) : State :=
  s.drawn.goto c (if s.failsAt 0 then raise .ioError a else andThen (s.mem.readBytes a n))

/-- `MemWrite(a, len(v), v)` for command `c` (20_memory.md R66, R67): a failed one leaves its range, and only that,
unspecified and raises `IoError(a)`. Either way the write-cycle timer is loaded (10_state.md R43). -/
def State.writeTransaction (c : Command) (a : Nat) (v : List Byte) (andThen : Position) (s : State) : State :=
  { s.drawn.goto c (if s.failsAt 0 then raise .ioError a else andThen) with
    mem := s.mem.writeBytes a (if s.failsAt 0 then tornBytes s.draws v.length else v)
    twc := s.tWc }

/-- One sequencer step of command `c`. -/
def State.perform (c : Command) (s : State) : Action → State
  | .goto p => s.goto c p
  | .read a n k => s.readTransaction c a n k
  | .write a v p => s.writeTransaction c a v p
  | .complete g => s.complete g

/-- Time passes until the write-cycle timer is 0. -/
def State.settle (s : State) : State := { s with twc := 0 }

/-- One unit of time passes (10_state.md R43). -/
def State.tick (s : State) : State := { s with twc := s.twc - 1 }

/-- The sequencer is left alone until the running command has completed, or for `k` steps if that is less. Each step waits
until the timer is 0, so that `T_WC` itself plays no part. -/
def State.runPlan (plan : Operands → Position → Action) : Nat → State → State
  | 0, s => s
  | k + 1, s =>
    match s.seq with
    | .idle => s
    | .busy c => (s.settle.perform c (plan c.ops c.pos)).runPlan plan k

/-- A command whose pseudocode is `plan`, from the host's write to CMD until its completion, with no host access, reset or
other event in between (30_encoding.md R111, `RUN`). While another command runs the write is dropped (10_state.md R36). -/
def runCommand (i : Instr) (plan : Operands → Position → Action) (s : State) : Host.Outcome State Fault Refusal :=
  .next (if s.isBusy then s.dropWrite else (s.accept i).runPlan plan Config.maxSteps)

end Sys2Proof.Machine
end

