-- ==== Sys2Proof/Machine/Operands.lean ====
section
/-! DEFINITION. The operand forms (spec/30_encoding.md R91) and the checks commands make on them at acceptance. -/

namespace Sys2Proof.Machine

/-- `n = x[LEN]`, zero-extended. -/
def Operands.n (o : Operands) : Nat := o.len.toNat

/-- `a = x[ADDR]`. -/
def Operands.a (o : Operands) : Nat := o.addr.toNat

/-- `BUF[0..n)`. -/
def Operands.data (o : Operands) : List Byte := o.buf.toList.take o.n

/-- `RangeOK(a, n)` of 42_raw_memory.md R201. -/
def rangeOK (a n : Nat) : Bool := a ≤ 32767 && 1 ≤ n && n ≤ 64 && a % 64 + n ≤ 64

/-- The precondition of LOG_APPEND (41_log.md R150, step 0): 1 to 61 bytes, none of them 0x00. -/
def messageOK (o : Operands) : Bool := Config.minMsg ≤ o.n && o.n ≤ Config.maxMsg && o.data.all (· != 0x00)

/-- The slot that CURSOR names, if it is not 32. -/
def SlotCount.slot? (k : SlotCount) : Option SlotIndex := if h : k.val < 32 then some ⟨k.val, h⟩ else .none

/-- The slot that the SLOT register names, if it is at most 31 (41_log.md R162). -/
def Operands.slot? (o : Operands) : Option SlotIndex := if h : o.slot.toNat < 32 then some ⟨o.slot.toNat, h⟩ else .none

end Sys2Proof.Machine
end

