-- ==== Sys2Proof/Machine/Crc.lean ====
section
/-! DEFINITION. The CRC-16 unit and CRC_COMPUTE (spec/40_crc.md). -/

namespace Sys2Proof.Machine

/-- One bit of the division: shift left, and subtract the polynomial when a 1 falls out (40_crc.md R120). -/
def crcBit (c : Half) : Half := if c.msb then (c <<< 1) ^^^ Config.crcVariant.poly else c <<< 1

/-- `k` bits. -/
def crcBits : Nat → Half → Half
  | 0, c => c
  | k + 1, c => crcBits k (crcBit c)

/-- One byte enters at bits 15:8, its bit 7 first. -/
def crcByte (c : Half) (b : Byte) : Half := crcBits 8 (c ^^^ (b.setWidth 16 <<< 8))

/-- `CRC16(s)` (40_crc.md R120). -/
def crc16 (s : List Byte) : Half := s.foldl crcByte Config.crcVariant.init ^^^ Config.crcVariant.xorOut

/-- CRC_COMPUTE (40_crc.md R121). -/
def planCrcCompute (o : Operands) : Position → Action
  | .complete g => .complete g
  | .check | .scan _ | .erase _ | .entry _ _ | .slot _ | .raw =>
    .goto (if 64 < o.n then raise .badParam else .complete { crc := some (crc16 o.data) })

/-- The meaning of CRC_COMPUTE. -/
def execCrcCompute (s : State) : Host.Outcome State Fault Refusal := runCommand .crcCompute planCrcCompute s

end Sys2Proof.Machine
end

