-- ==== Sys2Proof/Machine/Log.lean ====
section
/-! DEFINITION. The slotted circular log and the entry validity checker (spec/41_log.md).

A plan says what the sequencer does at each position of a command's pseudocode. A position that the command never has
stands for the beginning of its pseudocode (log entry 12). -/

namespace Sys2Proof.Machine

/-! ### Shared functions -/

/-- `Valid(raw)` (41_log.md R142): `some k` is (true, k), `none` is (false, 0). -/
def validEntry (raw : List Byte) : Option Nat :=
  let k := raw.findIdx (· == 0x00)
  let c := crc16 (raw.take (k + 1))
  if raw.getD 0 0x00 = 0x00 then .none
  else if Config.maxMsg < k then .none
  else if raw.getD (k + 1) 0x00 = hiByte c ∧ raw.getD (k + 2) 0x00 = loByte c then some k
  else .none

/-- The CRC of a message's entry: over the message and its terminator. -/
def entryCrc (m : List Byte) : Half := crc16 (m ++ [0x00])

/-- `Encode(m)` (41_log.md R146). -/
def encodeEntry (m : List Byte) : List Byte := m ++ [0x00, hiByte (entryCrc m), loByte (entryCrc m)]

/-- One turn of `FirstFree()` (41_log.md R144): read the first byte of slot `i`, and go on with the slot found, with the
next slot, or with the answer that the log is full. -/
def scanSlot (i : SlotIndex) (found : SlotIndex → Position) (full : Position) : Action :=
  .read (slotBase i) 1 fun b =>
    if b = [0x00] then found i
    else match nextSlot i with
      | some j => .scan j
      | .none => full

/-- One turn of `EraseAll()` (41_log.md R145). -/
def eraseSlot (i : SlotIndex) (andThen : Position) : Action :=
  .write (slotBase i) [0x00] (match nextSlot i with
    | some j => .erase j
    | .none => andThen)

/-- A slot as a value of RSLT or CURSOR. -/
def slotResult (i : SlotIndex) : SlotCount := i.castSucc

/-! ### Write-side commands -/

/-- LOG_APPEND (41_log.md R150). The precondition is looked at again where the entry is written, so that no position
whatever makes a write leave its slot (log entry 12). -/
def planLogAppend (o : Operands) : Position → Action
  | .complete g => .complete g
  | .scan i => scanSlot i (fun t => .entry t false) (.erase 0)
  | .erase i => eraseSlot i (.entry 0 true)
  | .entry t wrapped =>
    if messageOK o then
      .write (slotBase t) (encodeEntry o.data)
        (.complete { full := wrapped, crc := some (entryCrc o.data), rslt := some (slotResult t) })
    else .goto (raise .invalidEntry)
  | .check | .slot _ | .raw => .goto (if messageOK o then .scan 0 else raise .invalidEntry)

/-- The meaning of LOG_APPEND. -/
def execLogAppend (s : State) : Host.Outcome State Fault Refusal := runCommand .logAppend planLogAppend s

/-- LOG_ERASE (41_log.md R151). -/
def planLogErase (_ : Operands) : Position → Action
  | .complete g => .complete g
  | .erase i => eraseSlot i (.complete {})
  | .check | .scan _ | .entry _ _ | .slot _ | .raw => .goto (.erase 0)

/-- The meaning of LOG_ERASE. -/
def execLogErase (s : State) : Host.Outcome State Fault Refusal := runCommand .logErase planLogErase s

/-- LOG_FIND_FREE (41_log.md R152). -/
def planLogFindFree (_ : Operands) : Position → Action
  | .complete g => .complete g
  | .scan i => scanSlot i (fun t => .complete { rslt := some (slotResult t) }) (.complete { full := true, rslt := some 32 })
  | .check | .erase _ | .entry _ _ | .slot _ | .raw => .goto (.scan 0)

/-- The meaning of LOG_FIND_FREE. -/
def execLogFindFree (s : State) : Host.Outcome State Fault Refusal := runCommand .logFindFree planLogFindFree s

/-! ### Read-side commands -/

/-- LOG_READ_RESET (41_log.md R160). -/
def planLogReadReset (_ : Operands) : Position → Action
  | .complete g => .complete g
  | .check | .scan _ | .erase _ | .entry _ _ | .slot _ | .raw =>
    .goto (.complete { cursor := some 0, ended := some false })

/-- The meaning of LOG_READ_RESET. -/
def execLogReadReset (s : State) : Host.Outcome State Fault Refusal := runCommand .logReadReset planLogReadReset s

/-- What a slot that has been read leaves in BUF and LEN, with VALID (41_log.md R161, R162). -/
def slotItem (o : Operands) (raw : List Byte) : Staged :=
  { valid := (validEntry raw).isSome
    len := some (BitVec.ofNat 8 ((validEntry raw).getD 0))
    buf := some (loadBuffer o.buf raw) }

/-- What LOG_READ_NEXT stages once slot `i` has been read (41_log.md R161). -/
def readNextResult (o : Operands) (i : SlotIndex) (raw : List Byte) : Staged :=
  match validEntry raw with
  | some _ => { slotItem o raw with cursor := some i.succ }
  | .none => { slotItem o raw with ended := some true }

/-- LOG_READ_NEXT (41_log.md R161). -/
def planLogReadNext (o : Operands) : Position → Action
  | .complete g => .complete g
  | .slot i => .read (slotBase i) 64 fun raw => .complete (readNextResult o i raw)
  | .check | .scan _ | .erase _ | .entry _ _ | .raw =>
    .goto (match o.ended, SlotCount.slot? o.cursor with
      | false, some i => .slot i
      | true, _ | _, .none => .complete { ended := some true, len := some 0 })

/-- The meaning of LOG_READ_NEXT. -/
def execLogReadNext (s : State) : Host.Outcome State Fault Refusal := runCommand .logReadNext planLogReadNext s

/-- LOG_CHECK_SLOT (41_log.md R162). -/
def planLogCheckSlot (o : Operands) : Position → Action
  | .complete g => .complete g
  | .slot i => .read (slotBase i) 64 fun raw => .complete (slotItem o raw)
  | .check | .scan _ | .erase _ | .entry _ _ | .raw =>
    .goto (match o.slot? with
      | some i => .slot i
      | .none => raise .badParam)

/-- The meaning of LOG_CHECK_SLOT. -/
def execLogCheckSlot (s : State) : Host.Outcome State Fault Refusal := runCommand .logCheckSlot planLogCheckSlot s

end Sys2Proof.Machine
end

