-- ==== Sys2Proof/Machine/Raw.lean ====
section
/-! DEFINITION. The raw memory commands and the illegal opcodes (spec/42_raw_memory.md). -/

namespace Sys2Proof.Machine

/-- MEM_READ (42_raw_memory.md R202). The range is looked at again where the transaction is issued, so that no position
whatever makes the port leave 0..32767 (20_memory.md R61; log entry 12). -/
def planMemRead (o : Operands) : Position → Action
  | .complete g => .complete g
  | .raw =>
    if rangeOK o.a o.n then .read o.a o.n fun d => .complete { buf := some (loadBuffer o.buf d) }
    else .goto (raise .badParam)
  | .check | .scan _ | .erase _ | .entry _ _ | .slot _ => .goto (if rangeOK o.a o.n then .raw else raise .badParam)

/-- The meaning of MEM_READ. -/
def execMemRead (s : State) : Host.Outcome State Fault Refusal := runCommand .memRead planMemRead s

/-- MEM_WRITE (42_raw_memory.md R203). -/
def planMemWrite (o : Operands) : Position → Action
  | .complete g => .complete g
  | .raw => if rangeOK o.a o.n then .write o.a o.data (.complete {}) else .goto (raise .badParam)
  | .check | .scan _ | .erase _ | .entry _ _ | .slot _ => .goto (if rangeOK o.a o.n then .raw else raise .badParam)

/-- The meaning of MEM_WRITE. -/
def execMemWrite (s : State) : Host.Outcome State Fault Refusal := runCommand .memWrite planMemWrite s

/-- An illegal opcode (42_raw_memory.md R204). -/
def planIllegal (_ : Operands) : Position → Action
  | .complete g => .complete g
  | .check | .scan _ | .erase _ | .entry _ _ | .slot _ | .raw => .goto (raise .illegalCmd)

/-- The meaning of an illegal opcode, whichever it is. -/
def execIllegal (op : Byte) (s : State) : Host.Outcome State Fault Refusal := runCommand (.illegal op) planIllegal s

end Sys2Proof.Machine
end

