-- ==== Sys2Proof/Machine/Dispatch.lean ====
section
/-! DEFINITION. Which meaning each command has. -/

namespace Sys2Proof.Machine

def exec (i : Instr) (s : State) : Host.Outcome State Fault Refusal :=
  match i with
  | .crcCompute => Sys2Proof.Machine.execCrcCompute s
  | .logAppend => Sys2Proof.Machine.execLogAppend s
  | .logErase => Sys2Proof.Machine.execLogErase s
  | .logReadReset => Sys2Proof.Machine.execLogReadReset s
  | .logReadNext => Sys2Proof.Machine.execLogReadNext s
  | .logCheckSlot => Sys2Proof.Machine.execLogCheckSlot s
  | .logFindFree => Sys2Proof.Machine.execLogFindFree s
  | .memRead => Sys2Proof.Machine.execMemRead s
  | .memWrite => Sys2Proof.Machine.execMemWrite s
  | .illegal op => Sys2Proof.Machine.execIllegal op s

end Sys2Proof.Machine
end

