-- ==== Sys2Proof/Machine/Sequencer.lean ====
section
/-! DEFINITION. The running command one step at a time, and reset (spec/10_state.md R40 to R43,
70_reset_and_hazards.md R260 to R262). -/

namespace Sys2Proof.Machine

/-- The pseudocode of a command, the same that its meaning runs. -/
def planOf : Instr → Operands → Position → Action
  | .crcCompute => planCrcCompute
  | .logAppend => planLogAppend
  | .logErase => planLogErase
  | .logReadReset => planLogReadReset
  | .logReadNext => planLogReadNext
  | .logCheckSlot => planLogCheckSlot
  | .logFindFree => planLogFindFree
  | .memRead => planMemRead
  | .memWrite => planMemWrite
  | .illegal _ => planIllegal

/-- What the sequencer does next for the running command. -/
def Command.next (c : Command) : Action := planOf c.instr c.ops c.pos

/-- The write-cycle timer holds back transactions and completions (10_state.md R43); a check is neither. -/
def Action.waits : Action → Bool
  | .goto _ => false
  | .read _ _ _ | .write _ _ _ | .complete _ => true

/-- Whether the sequencer may take a step. -/
def State.mayAdvance (s : State) : Bool :=
  match s.seq with
  | .idle => false
  | .busy c => !c.next.waits || s.twc == 0

/-- One sequencer step, if it may be taken. -/
def State.advance (s : State) : State :=
  match s.seq with
  | .idle => s
  | .busy c => if s.mayAdvance then s.perform c c.next else s

/-- The running command, left alone until it has completed. -/
def State.finish (s : State) : State :=
  match s.seq with
  | .idle => s
  | .busy c => s.runPlan (planOf c.instr) Config.maxSteps

/-- The world outside does nothing: the sequencer takes its step if it may, else time passes (log entry 14). -/
def State.onItsOwn (s : State) : State := if s.mayAdvance then s.advance else s.tick

/-- Reset (10_state.md R47, 70_reset_and_hazards.md R260, R261): every register and hidden state, at once; the memory
stays. What lies outside the block (the memory's answers, the script, what the host has read) stays too. -/
def State.afterReset (s : State) : State := { s with regs := .reset, seq := .idle, twc := s.tWc }

/-- A reset in the middle of the transaction that the sequencer would issue next (70_reset_and_hazards.md R262): the range
of a write is left unspecified, as by a failed write; a read has no effect. -/
def State.cutTransaction (s : State) : State :=
  match s.seq with
  | .idle => s
  | .busy c =>
    match c.next, s.mayAdvance with
    | .write a v _, true => { s with mem := s.mem.writeBytes a (tornBytes s.draws v.length), draws := s.draws + 1 }
    | _, _ => s

end Sys2Proof.Machine
end

