-- ==== Sys2Proof/Machine/Flags.lean ====
section
/-! DEFINITION. The bytes that the status and error registers read as (spec/10_state.md R23, 60_exceptions.md R221). -/

namespace Sys2Proof.Machine

/-- The byte of an error code (60_exceptions.md R221). -/
def ErrorCode.code : ErrorCode → Byte
  | .none => 0x00
  | .invalidEntry => 0x01
  | .ioError => 0x02
  | .illegalCmd => 0x03
  | .badParam => 0x04

/-- The STATUS byte, bit 7 first (10_state.md R23): bit 7 reads 0, bit 0 is BUSY. -/
def statusByte (r : Regs) (busy : Bool) : Byte :=
  BitVec.ofBool false ++ BitVec.ofBool r.overrun ++ BitVec.ofBool r.errf ++ BitVec.ofBool r.full ++
    BitVec.ofBool r.ended ++ BitVec.ofBool r.valid ++ BitVec.ofBool r.done ++ BitVec.ofBool busy

/-- A host write of `v` to STATUS: OVERRUN is cleared by a 1 in bit 6, nothing else (10_state.md R23). -/
def Regs.writeStatus (r : Regs) (v : Byte) : Regs := { r with overrun := r.overrun && !v.getLsbD 6 }

end Sys2Proof.Machine
end

