-- ==== Sys2Proof/Machine/Window.lean ====
section
/-! DEFINITION. The host register window (spec/10_state.md R20 to R37). -/

namespace Sys2Proof.Machine

/-- What stands at a window offset (10_state.md R21). -/
inductive Register where
  | cmd | status | err | len | addrHi | addrLo | slot | cursor | crcHi | crcLo | rslt | faddrHi | faddrLo
  | buf (j : Fin 64)
  | reserved
  deriving DecidableEq, Repr

/-- The register map (10_state.md R21). -/
def registerAt (off : Byte) : Register :=
  match off.toNat with
  | 0x00 => .cmd
  | 0x01 => .status
  | 0x02 => .err
  | 0x03 => .len
  | 0x04 => .addrHi
  | 0x05 => .addrLo
  | 0x06 => .slot
  | 0x07 => .cursor
  | 0x08 => .crcHi
  | 0x09 => .crcLo
  | 0x0A => .rslt
  | 0x0B => .faddrHi
  | 0x0C => .faddrLo
  | n => if h : 0x40 ≤ n ∧ n - 0x40 < 64 then .buf ⟨n - 0x40, h.2⟩ else .reserved

/-- What a register reads as (10_state.md R22 to R33). While a command runs these are the values from before its
completion, since its results are staged (R37). -/
def State.valueOf (s : State) : Register → Byte
  | .cmd => s.regs.cmd
  | .status => statusByte s.regs s.isBusy
  | .err => s.regs.err.code
  | .len => s.regs.len
  | .addrHi => s.regs.addrHi
  | .addrLo => s.regs.addrLo
  | .slot => s.regs.slot
  | .cursor => BitVec.ofNat 8 s.regs.cursor.val
  | .crcHi => hiByte s.regs.crc
  | .crcLo => loByte s.regs.crc
  | .rslt => BitVec.ofNat 8 s.regs.rslt.val
  | .faddrHi => hiByte s.regs.faddr
  | .faddrLo => loByte s.regs.faddr
  | .buf j => s.regs.buf[j]
  | .reserved => 0x00

/-- `RegRead(off)`: the host gets the byte, and nothing else happens (10_state.md R37). -/
def State.hostRead (off : Byte) (s : State) : State := { s with rdata := some (s.valueOf (registerAt off)) }

/-- A host write to an operand register: dropped while a command runs (10_state.md R36). -/
def State.writeOperand (f : Regs → Regs) (s : State) : State :=
  if s.isBusy then s.dropWrite else { s with regs := f s.regs }

/-- A host write to CMD: a command is accepted, or the write is dropped (10_state.md R22, R36, R41). -/
def State.writeCmd (op : Byte) (s : State) : State :=
  if s.isBusy then s.dropWrite else s.accept (decodeByte op)

/-- `RegWrite(off, v)` (10_state.md R22 to R33, R36). -/
def State.hostWrite (off v : Byte) (s : State) : State :=
  match registerAt off with
  | .cmd => s.writeCmd v
  | .status => { s with regs := s.regs.writeStatus v }
  | .len => s.writeOperand fun r => { r with len := v }
  | .addrHi => s.writeOperand fun r => { r with addrHi := v }
  | .addrLo => s.writeOperand fun r => { r with addrLo := v }
  | .slot => s.writeOperand fun r => { r with slot := v }
  | .buf j => s.writeOperand fun r => { r with buf := r.buf.set j v }
  | .err | .cursor | .crcHi | .crcLo | .rslt | .faddrHi | .faddrLo | .reserved => s

end Sys2Proof.Machine
end

