-- ==== Sys2Proof/Machine/Step.lean ====
section
/-! DEFINITION. One step of the machine: the next item of the script of the world outside, or, when the script is at its
end, what the machine does on its own. -/

namespace Sys2Proof.Machine

/-- One item of the script. -/
def State.onInput (e : Input) (s : State) : Host.Outcome State Fault Refusal :=
  match e with
  | .read off => .next (s.hostRead off)
  | .write off v => .next (s.hostWrite off v)
  | .run op => exec (decodeByte op) s
  | .finish => .next s.finish
  | .advance => .next s.advance
  | .tick => .next s.tick
  | .reset false => .next s.afterReset
  | .reset true => .next s.cutTransaction.afterReset

def step (s : State) : Host.Outcome State Fault Refusal :=
  match s.inputs with
  | [] => .next s.onItsOwn
  | e :: rest => { s with inputs := rest }.onInput e

/-- `s` with the command word `w` as what the host writes next, the block ready for it. The block has no program counter
and fetches nothing (10_state.md R46): a command comes from the host's write to CMD (log entry 13). -/
def State.withFetchWord (s : State) (_nbits w : Nat) : State :=
  { s with seq := .idle, inputs := .run (BitVec.ofNat 8 w) :: s.inputs }

end Sys2Proof.Machine
end

