-- ==== Sys2Proof/Safety.lean ====
section
/-! DEFINITION. The words that claims about the machine are made in: what a log holds, what a host's read loop collects,
which transactions are allowed, and the invariant that every step keeps. -/

namespace Sys2Proof.Machine

/-- `k` steps, as long as the machine goes on. -/
def stepTimes : Nat → State → Host.Outcome State Fault Refusal
  | 0, s => .next s
  | k + 1, s =>
    match step s with
    | .next t => stepTimes k t
    | .fault r => .fault r
    | .refused r => .refused r

/-! ### The log as memory contents (spec/41_log.md R140, R170, R171) -/

/-- The 64 bytes of slot `i` (20_memory.md R64). -/
def Memory.slotBytes (m : Memory) (i : Nat) : List Byte := m.readBytes (slotBase i) 64

/-- Slot `i` is free (R140). -/
abbrev Memory.FreeSlot (m : Memory) (i : Nat) : Prop := m.read (slotBase i) = 0x00

/-- The string that slot `i` yields, when it is valid (R142, R143). -/
def Memory.item (m : Memory) (i : Nat) : Option (List Byte) :=
  (validEntry (m.slotBytes i)).map fun k => (m.slotBytes i).take k

/-- The strings of the slots from `i` on, up to the first that is not valid, at most `k` of them. -/
def Memory.itemsFrom (m : Memory) : Nat → Nat → List (List Byte)
  | 0, _ => []
  | k + 1, i =>
    match m.item i with
    | some x => x :: m.itemsFrom k (i + 1)
    | .none => []

/-- The strings of the read sequence (R170). -/
def Memory.items (m : Memory) : List (List Byte) := m.itemsFrom Config.slotCount 0

/-- A well-formed log with count `t` (R171). -/
abbrev Memory.WellFormedLog (m : Memory) (t : Nat) : Prop :=
  t ≤ 32 ∧ (∀ i < t, (m.item i).isSome) ∧ ∀ i < 32, t ≤ i → m.FreeSlot i

/-- What a host collects that issues LOG_READ_NEXT until STATUS.VALID is 0, at most `k` times (30_encoding.md R113):
`BUF[0..LEN)` after each that ends with VALID = 1. -/
def collectItems : Nat → State → List (List Byte)
  | 0, _ => []
  | k + 1, s =>
    match exec .logReadNext s with
    | .next t => if t.regs.valid then t.regs.buf.toList.take t.regs.len.toNat :: collectItems k t else []
    | .fault _ | .refused _ => []

/-- The memory with the first byte of the slots below `k` erased, one write each, slot 0 first (R145). -/
def Memory.eraseBelow (m : Memory) : Nat → Memory
  | 0 => m
  | k + 1 => (m.eraseBelow k).writeBytes (slotBase k) [0x00]

/-! ### Draws -/

/-- The next `n` transactions succeed. -/
abbrev State.NextSucceed (s : State) (n : Nat) : Prop := ∀ k < n, s.failsAt k = false

/-- Transaction `k` from now fails, and those before it succeed. -/
abbrev State.FirstFailure (s : State) (k : Nat) : Prop := s.NextSucceed k ∧ s.failsAt k = true

/-- After `n` draws and the wait for the write-cycle timer, with the registers `r` and the memory `m`, and no command
running: how a command leaves the machine. -/
def State.after (s : State) (n : Nat) (r : Regs) (m : Memory) : State :=
  { s with regs := r, seq := .idle, twc := 0, mem := m, answers := s.answers.drop n, draws := s.draws + n }

/-! ### Transactions that the block may issue -/

/-- A transaction of `n` bytes at `a` that the memory port allows (20_memory.md R61, R65, R66, R69). -/
abbrev AllowedTransaction (a n : Nat) : Prop := 1 ≤ n ∧ n ≤ 64 ∧ a + n ≤ Config.memSize ∧ a % 64 + n ≤ 64

/-- The transaction an action issues, if it issues one: its address and its length. -/
def Action.transaction : Action → Option (Nat × Nat)
  | .goto _ | .complete _ => .none
  | .read a n _ => some (a, n)
  | .write a v _ => some (a, v.length)

/-! ### The invariant -/

/-- Results that an error leaves to be written: none but the error itself, with an address exactly when it is IO_ERROR
(60_exceptions.md R223, R225). -/
def Staged.Consistent (g : Staged) : Prop :=
  (g.faddr.isSome ↔ g.err = .ioError) ∧
    (g.err ≠ .none → g = { err := g.err, faddr := g.faddr })

/-- What every step keeps. -/
structure State.Inv (s : State) : Prop where
  /-- The memory is in its canonical form. -/
  memory : s.mem.wf = true
  /-- The timer is never above a whole write-cycle time (10_state.md R43). -/
  timer : s.twc ≤ s.tWc
  /-- STATUS.ERRF says whether ERR is 0 (10_state.md R23). -/
  errFlag : s.regs.errf = decide (s.regs.err ≠ .none)
  /-- An error leaves VALID and FULL 0 (60_exceptions.md R225). -/
  errorClears : s.regs.err ≠ .none → s.regs.valid = false ∧ s.regs.full = false
  /-- VALID and FULL are results of different commands (10_state.md R35). -/
  validOrFull : ¬ (s.regs.valid = true ∧ s.regs.full = true)
  /-- While a command runs, DONE is 0, CMD holds its opcode, and the operand registers hold what was sampled
  (10_state.md R36, R40, R41). -/
  running : ∀ c, s.seq = .busy c →
    s.regs.done = false ∧ s.regs.cmd = c.instr.opcode ∧ c.ops = s.regs.sample
  /-- What a running command has staged. -/
  staged : ∀ c g, s.seq = .busy c → c.pos = .complete g → g.Consistent ∧ ¬ (g.valid = true ∧ g.full = true)

end Sys2Proof.Machine
end

