-- ==== Sys2Proof/Certificates/Slice0/Obligations.lean ====
section
/-! DEFINITION. The statements about the model, for the provers.

What these words say: `s.inputs = e :: rest` is that `e` is what happens next, whatever follows (the script is the model's,
log entry 1; any order of host accesses, sequencer steps, time and resets is some script, 60_exceptions.md R226). `exec i s` is
the whole command, from the host's write to CMD to its completion, with nothing in between but time (30_encoding.md R111; the
model's grain, log entry 6; WholeCommandIsItsSingleSteps says that it is its single steps). `s.failsAt k` is the draw IO_FAIL
of transaction `k` from now (log entry 2), `Config.tornByte` the unspecified bytes (log entry 3): no value of either is
assumed. `s.after n r m` is the state `s` with the registers `r`, the memory `m`, `n` transactions answered, no command running
and the write-cycle timer run down: every field that it does not name, and every register that a record update does not name,
is unchanged. -/

open Sys2Proof Sys2Proof.Machine

/-! ### Encoding -/

/-- The opcode map of 30_encoding.md R92, and two of the opcodes that R93 calls illegal. -/
def Obligations.OpcodeMapDecodes : Prop :=
  decode [0x01] = .ok (.crcCompute, []) ∧ decode [0x02] = .ok (.logAppend, []) ∧ decode [0x03] = .ok (.logErase, []) ∧
  decode [0x04] = .ok (.logReadReset, []) ∧ decode [0x05] = .ok (.logReadNext, []) ∧
  decode [0x06] = .ok (.logCheckSlot, []) ∧ decode [0x07] = .ok (.logFindFree, []) ∧ decode [0x08] = .ok (.memRead, []) ∧
  decode [0x09] = .ok (.memWrite, []) ∧ decode [0x00] = .ok (.illegal 0x00, []) ∧ decode [0xFF] = .ok (.illegal 0xFF, [])

/-- Decoding the word of a well-formed command gives the command back, and leaves what follows the word. -/
def Obligations.DecodeOfEncodeIsTheCommand : Prop :=
  ∀ (i : Instr) (rest : List Byte), i.wellFormed = true → decode (encode i ++ rest) = .ok (i, rest)

/-- Every byte sequence that decodes is the word of the well-formed command it decodes to, and only the empty one does not
decode (30_encoding.md R90, R93: every byte has one meaning). -/
def Obligations.EncodeOfDecodeIsTheWord : Prop :=
  (∀ (bs : List Byte) (i : Instr) (rest : List Byte), decode bs = .ok (i, rest) → i.wellFormed = true ∧ encode i ++ rest = bs) ∧
  (∀ bs : List Byte, decode bs = .error .noByte ↔ bs = [])

/-! ### The step -/

/-- A command word that the host writes to CMD with no access until its completion: the step is `exec` of the command the
word decodes to. The block has no program counter (10_state.md R46): the script moves past the word (the model's choice, log
entries 1 and 13). -/
def Obligations.StepRunsTheDecodedCommand : Prop :=
  ∀ (s : State) (op : Byte) (i : Instr) (rest : List Input),
    s.inputs = .run op :: rest → decode [op] = .ok (i, []) → step s = exec i { s with inputs := rest }

/-- A whole command is its single steps: the host's write to CMD, then steps of the sequencer and time, one at a time, with
no other event between them (00_scope.md R14, 10_state.md R41 to R43, 60_exceptions.md R226). -/
def Obligations.WholeCommandIsItsSingleSteps : Prop :=
  ∀ (s : State) (op : Byte) (rest : List Input), s.seq = .idle →
    ∃ es : List Input, (∀ e ∈ es, e = .advance ∨ e = .tick) ∧
      stepTimes (es.length + 1) { s with inputs := .write 0x00 op :: (es ++ rest) } =
        step { s with inputs := .run op :: rest }

/-- From IDLE every command, legal or not, completes: IDLE again, DONE set, the timer run down, after at most 65
transactions (70_reset_and_hazards.md R275). That `exec` waits out the timer is the model's choice (log entry 6). -/
def Obligations.EveryCommandCompletes : Prop :=
  ∀ (i : Instr) (s : State), s.seq = .idle →
    ∃ t, exec i s = .next t ∧ t.seq = .idle ∧ t.twc = 0 ∧ t.regs.done = true ∧ t.regs.cmd = i.opcode ∧ t.draws ≤ s.draws + 65

/-- A command that runs, wherever it stands, completes when it is left alone (30_encoding.md R110, `WAIT`; the script's `finish`
is the model's, log entry 6), after at most 65 more transactions. -/
def Obligations.RunningCommandFinishes : Prop :=
  ∀ (s : State) (c : Command) (rest : List Input), s.seq = .busy c → s.inputs = .finish :: rest →
    ∃ t, step s = .next t ∧ t.seq = .idle ∧ t.regs.done = true ∧ t.draws ≤ s.draws + 65 ∧ t.inputs = rest

/-- A command written to CMD while another runs is dropped: OVERRUN is set and nothing else changes (10_state.md R36; that `exec`
then does not wait for the running one is the model's choice, log entry 6). -/
def Obligations.CommandWhileBusyIsDropped : Prop :=
  ∀ (i : Instr) (s : State) (c : Command), s.seq = .busy c →
    exec i s = .next { s with regs := { s.regs with overrun := true } }

/-! ### Reset -/

/-- What State.reset holds: the register values of 10_state.md R47, `seq` IDLE, `twc` = `T_WC`, every window offset reading
0x00 (95_test_vectors.md V85), and a memory whose contents are the open MEM_INIT. -/
def Obligations.ResetStateValues : Prop :=
  (∀ off : Byte, State.reset.valueOf (registerAt off) = 0x00) ∧ State.reset.seq = .idle ∧
  State.reset.twc = State.reset.tWc ∧ State.reset.tWc = Config.tWc ∧ ∀ a, State.reset.mem.read a = Config.memInit a

/-- A reset at any moment, in a transaction or not: every register and hidden state takes its reset value, and the memory
stays, but for the range of a write transaction that the reset cuts, each byte of which becomes unspecified
(`Config.tornByte`, a constant with no body; log entry 3). That a cutting reset cuts the write that the sequencer would issue
next, when the timer lets it, is the model's choice (DESIGN CHOICE, log entry 15). -/
def Obligations.ResetKeepsMemoryAndClearsRegisters : Prop :=
  ∀ (s : State) (cutting : Bool) (rest : List Input), s.inputs = .reset cutting :: rest →
    ∃ t, step s = .next t ∧ t.seq = .idle ∧ t.twc = s.tWc ∧ t.tWc = s.tWc ∧
      t.regs = { cmd := 0x00, done := false, valid := false, ended := false, full := false, errf := false,
                 overrun := false, err := .none, len := 0x00, addrHi := 0x00, addrLo := 0x00, slot := 0x00, cursor := 0,
                 crc := 0x0000, rslt := 0, faddr := 0x0000, buf := Vector.replicate 64 0x00 } ∧
      (∀ k, t.mem.read k =
        match s.seq, cutting with
        | .busy c, true =>
          match c.next with
          | .write a v _ =>
            if s.twc = 0 ∧ a ≤ k ∧ k < a + v.length then Config.tornByte s.draws (k - a) else s.mem.read k
          | .goto _ | .read _ _ _ | .complete _ => s.mem.read k
        | .idle, _ | .busy _, false => s.mem.read k)

/-- The block is IDLE after reset and does nothing until the host writes CMD (70_reset_and_hazards.md R263): with no command
running, time passes and nothing else, and no sequencer step does anything. That the machine lets time pass when the script is
at its end is the model's choice (log entry 14). -/
def Obligations.IdleDoesNothing : Prop :=
  State.reset.seq = .idle ∧ State.reset.inputs = [] ∧
  ∀ s : State, s.seq = .idle →
    (s.inputs = [] → step s = .next { s with twc := s.twc - 1 }) ∧
    (∀ rest, s.inputs = .advance :: rest → step s = .next { s with inputs := rest }) ∧
    (∀ rest, s.inputs = .finish :: rest → step s = .next { s with inputs := rest })

/-! ### The register window -/

/-- What the host gets from each offset (10_state.md R21): the 13 registers, the buffer, and 0x00 from a reserved offset.
Nothing changes but what the host has read (10_state.md R37). -/
def Obligations.WindowReads : Prop :=
  ∀ (s : State) (off : Byte) (rest : List Input), s.inputs = .read off :: rest →
    ∃ b, step s = .next { s with inputs := rest, rdata := some b } ∧
      (off = 0x00 → b = s.regs.cmd) ∧
      (off = 0x01 → b = statusByte s.regs s.isBusy) ∧
      (off = 0x02 → b = s.regs.err.code) ∧
      (off = 0x03 → b = s.regs.len) ∧
      (off = 0x04 → b = s.regs.addrHi) ∧
      (off = 0x05 → b = s.regs.addrLo) ∧
      (off = 0x06 → b = s.regs.slot) ∧
      (off = 0x07 → b.toNat = s.regs.cursor.val) ∧
      (off = 0x08 → b.toNat = s.regs.crc.toNat / 256) ∧
      (off = 0x09 → b.toNat = s.regs.crc.toNat % 256) ∧
      (off = 0x0A → b.toNat = s.regs.rslt.val) ∧
      (off = 0x0B → b.toNat = s.regs.faddr.toNat / 256) ∧
      (off = 0x0C → b.toNat = s.regs.faddr.toNat % 256) ∧
      (∀ j : Fin 64, off.toNat = 0x40 + j.val → b = s.regs.buf[j]) ∧
      ((0x0D ≤ off.toNat ∧ off.toNat ≤ 0x3F) ∨ 0x80 ≤ off.toNat → b = 0x00)

/-- The STATUS byte, bit by bit (10_state.md R23): BUSY is (seq is not IDLE) (R40), bit 7 reads 0. -/
def Obligations.StatusByteBits : Prop :=
  ∀ s : State,
    (statusByte s.regs s.isBusy).getLsbD 0 = s.isBusy ∧ (s.isBusy = true ↔ s.seq ≠ .idle) ∧
    (statusByte s.regs s.isBusy).getLsbD 1 = s.regs.done ∧
    (statusByte s.regs s.isBusy).getLsbD 2 = s.regs.valid ∧
    (statusByte s.regs s.isBusy).getLsbD 3 = s.regs.ended ∧
    (statusByte s.regs s.isBusy).getLsbD 4 = s.regs.full ∧
    (statusByte s.regs s.isBusy).getLsbD 5 = s.regs.errf ∧
    (statusByte s.regs s.isBusy).getLsbD 6 = s.regs.overrun ∧
    (statusByte s.regs s.isBusy).getLsbD 7 = false

/-- The bytes of the error codes (60_exceptions.md R221); ERR reads as no other. -/
def Obligations.ErrorCodeBytes : Prop :=
  ErrorCode.none.code = 0x00 ∧ ErrorCode.invalidEntry.code = 0x01 ∧ ErrorCode.ioError.code = 0x02 ∧
  ErrorCode.illegalCmd.code = 0x03 ∧ ErrorCode.badParam.code = 0x04 ∧
  ∀ s : State, (s.valueOf (registerAt 0x02)).toNat ≤ 4

/-- A host write to CMD, LEN, ADDR_HI, ADDR_LO, SLOT or a BUF byte while a command runs: the register keeps its value,
OVERRUN is set, no command starts. -/
def Obligations.WritesWhileBusyAreDropped : Prop :=
  ∀ (s : State) (c : Command) (off v : Byte) (rest : List Input), s.seq = .busy c → s.inputs = .write off v :: rest →
    off = 0x00 ∨ (0x03 ≤ off.toNat ∧ off.toNat ≤ 0x06) ∨ (0x40 ≤ off.toNat ∧ off.toNat ≤ 0x7F) →
    step s = .next { s with inputs := rest, regs := { s.regs with overrun := true } }

/-- A host write to an operand register while no command runs stores the byte, whatever it is, and changes no other
register. -/
def Obligations.OperandWritesAreStored : Prop :=
  ∀ (s : State) (off v : Byte) (rest : List Input), s.seq = .idle → s.inputs = .write off v :: rest →
    (off = 0x03 → step s = .next { s with inputs := rest, regs := { s.regs with len := v } }) ∧
    (off = 0x04 → step s = .next { s with inputs := rest, regs := { s.regs with addrHi := v } }) ∧
    (off = 0x05 → step s = .next { s with inputs := rest, regs := { s.regs with addrLo := v } }) ∧
    (off = 0x06 → step s = .next { s with inputs := rest, regs := { s.regs with slot := v } }) ∧
    (∀ j : Fin 64, off.toNat = 0x40 + j.val →
      step s = .next { s with inputs := rest, regs := { s.regs with buf := s.regs.buf.set j v } })

/-- A host write to STATUS, whether or not a command runs: OVERRUN is cleared by a 1 in bit 6, and nothing else happens. -/
def Obligations.StatusWriteClearsOverrunOnly : Prop :=
  ∀ (s : State) (v : Byte) (rest : List Input), s.inputs = .write 0x01 v :: rest →
    step s = .next { s with inputs := rest,
                            regs := { s.regs with overrun := if v.getLsbD 6 then false else s.regs.overrun } }

/-- Reserved offsets and the reserved bit 7 of STATUS read 0; a write to a reserved offset or to a read-only register is
ignored with no side effect, whether or not a command runs. -/
def Obligations.ReservedAndReadOnlyOffsets : Prop :=
  ∀ (s : State) (off v : Byte) (rest : List Input),
    ((0x0D ≤ off.toNat ∧ off.toNat ≤ 0x3F) ∨ 0x80 ≤ off.toNat → s.valueOf (registerAt off) = 0x00) ∧
    (s.valueOf (registerAt 0x01)).getLsbD 7 = false ∧
    (s.inputs = .write off v :: rest →
      (off = 0x02 ∨ (0x07 ≤ off.toNat ∧ off.toNat ≤ 0x3F) ∨ 0x80 ≤ off.toNat → step s = .next { s with inputs := rest }) ∧
      (off = 0x01 → v.getLsbD 6 = false → step s = .next { s with inputs := rest }))

/-- Acceptance: a host write of `op` to CMD while `seq` is IDLE, in that one step. -/
def Obligations.AcceptanceStep : Prop :=
  ∀ (s : State) (op : Byte) (rest : List Input), s.seq = .idle → s.inputs = .write 0x00 op :: rest →
    step s = .next { s with
      inputs := rest
      regs := { s.regs with cmd := op, done := false }
      seq := .busy { instr := decodeByte op
                     ops := { len := s.regs.len, addr := s.regs.addrHi ++ s.regs.addrLo, slot := s.regs.slot,
                              buf := s.regs.buf, cursor := s.regs.cursor, ended := s.regs.ended }
                     pos := .check } }

/-! ### Sequencer steps -/

/-- While the write-cycle timer is above 0 the sequencer takes no transaction step and no completion step, and time counts
the timer down. -/
def Obligations.TimerHoldsBackTheSequencer : Prop :=
  (∀ (s : State) (c : Command) (rest : List Input), s.seq = .busy c → 0 < s.twc → s.inputs = .advance :: rest →
    (c.next.transaction.isSome ∨ ∃ g, c.pos = .complete g) → step s = .next { s with inputs := rest }) ∧
  (∀ (s : State) (rest : List Input), s.inputs = .tick :: rest →
    step s = .next { s with inputs := rest, twc := s.twc - 1 })

/-- Completion: the staged results are written all together, in one step; a result that is not staged is unchanged. -/
def Obligations.CompletionStep : Prop :=
  ∀ (s : State) (c : Command) (g : Staged) (rest : List Input),
    s.seq = .busy c → c.pos = .complete g → s.twc = 0 → s.inputs = .advance :: rest →
    step s = .next { s with
      inputs := rest
      seq := .idle
      regs := { s.regs with
        done := true
        err := g.err
        errf := decide (g.err ≠ .none)
        valid := g.valid
        full := g.full
        ended := g.ended.getD s.regs.ended
        cursor := g.cursor.getD s.regs.cursor
        len := g.len.getD s.regs.len
        buf := g.buf.getD s.regs.buf
        crc := g.crc.getD s.regs.crc
        rslt := g.rslt.getD s.regs.rslt
        faddr := g.faddr.getD s.regs.faddr } }

/-- A read transaction that succeeds hands on the bytes of memory in address order and changes no byte, nor the timer. -/
def Obligations.ReadTransactionReturnsMemory : Prop :=
  ∀ (s : State) (c : Command) (a n : Nat) (k : List Byte → Position) (rest : List Input),
    s.seq = .busy c → c.next = .read a n k → s.twc = 0 → s.inputs = .advance :: rest → s.failsAt 0 = false →
    step s = .next { s with
      inputs := rest
      answers := s.answers.tail
      draws := s.draws + 1
      seq := .busy { c with pos := k ((List.range n).map fun j => s.mem.read (a + j)) } }

/-- A write transaction that succeeds stores its bytes, changes no other byte, and loads the timer. -/
def Obligations.WriteTransactionStoresItsBytes : Prop :=
  ∀ (s : State) (c : Command) (a : Nat) (v : List Byte) (p : Position) (rest : List Input),
    s.seq = .busy c → c.next = .write a v p → s.twc = 0 → s.inputs = .advance :: rest → s.failsAt 0 = false →
    ∃ t, step s = .next t ∧ t.seq = .busy { c with pos := p } ∧ t.twc = s.tWc ∧ t.regs = s.regs ∧ t.tWc = s.tWc ∧
      t.inputs = rest ∧ t.rdata = s.rdata ∧ t.answers = s.answers.tail ∧ t.draws = s.draws + 1 ∧
      (∀ (j : Nat) (h : j < v.length), t.mem.read (a + j) = v[j]) ∧
      (∀ k, k < a ∨ a + v.length ≤ k → t.mem.read k = s.mem.read k)

/-- A transaction that fails raises IoError of its address: nothing is left to the command but an error completion. A failed
read changes no byte; a failed write leaves its range unspecified (`Config.tornByte`, a constant with no body), changes no
other byte, and loads the timer too. -/
def Obligations.FailedTransactionEffects : Prop :=
  ∀ (s : State) (c : Command) (rest : List Input), s.seq = .busy c → s.twc = 0 → s.inputs = .advance :: rest →
    s.failsAt 0 = true →
    (∀ (a n : Nat) (k : List Byte → Position), c.next = .read a n k →
      step s = .next { s with
        inputs := rest
        answers := s.answers.tail
        draws := s.draws + 1
        seq := .busy { c with pos := .complete { err := .ioError, faddr := some (BitVec.ofNat 16 a) } } }) ∧
    (∀ (a : Nat) (v : List Byte) (p : Position), c.next = .write a v p →
      ∃ t, step s = .next t ∧ t.regs = s.regs ∧ t.twc = s.tWc ∧ t.inputs = rest ∧ t.rdata = s.rdata ∧
        t.answers = s.answers.tail ∧ t.draws = s.draws + 1 ∧
        t.seq = .busy { c with pos := .complete { err := .ioError, faddr := some (BitVec.ofNat 16 a) } } ∧
        (∀ j < v.length, t.mem.read (a + j) = Config.tornByte s.draws j) ∧
        (∀ k, k < a ∨ a + v.length ≤ k → t.mem.read k = s.mem.read k))

/-- Every transaction that the sequencer may issue, for any command at any position, has 1 to 64 bytes, lies inside one
64-byte block, and addresses bytes that exist; a log command's lies inside the log region. -/
def Obligations.TransactionsStayInTheirBlock : Prop :=
  ∀ (c : Command) (a n : Nat), c.next.transaction = some (a, n) →
    AllowedTransaction a n ∧ (c.instr ≠ .memRead → c.instr ≠ .memWrite → a + n ≤ Config.logSize)

/-! ### The CRC unit -/

/-- The bitwise algorithm of 40_crc.md R120, with its two known answers: no bytes give 0xFFFF, "123456789" gives 0x29B1. -/
def Obligations.CrcOfKnownSequences : Prop :=
  crc16 [] = 0xFFFF ∧ crc16 [0x31, 0x32, 0x33, 0x34, 0x35, 0x36, 0x37, 0x38, 0x39] = 0x29B1

/-- Appending a sequence's own CRC, most significant byte first, gives the CRC 0x0000. -/
def Obligations.CrcResidueIsZero : Prop :=
  ∀ s : List Byte, crc16 (s ++ [hiByte (crc16 s), loByte (crc16 s)]) = 0x0000

/-- The difference of the CRCs of two sequences of one length depends only on the difference of the sequences. -/
def Obligations.CrcDifferenceLaw : Prop :=
  ∀ s t s' t' : List Byte, s.length = t.length → s'.length = t'.length → s.length = s'.length →
    List.zipWith (· ^^^ ·) s t = List.zipWith (· ^^^ ·) s' t' → crc16 s ^^^ crc16 t = crc16 s' ^^^ crc16 t'

/-- Changing any one bit of a sequence changes its CRC. -/
def Obligations.CrcDetectsEverySingleBit : Prop :=
  ∀ (s : List Byte) (j : Nat) (h : j < s.length) (b : Fin 8),
    crc16 (s.set j (s[j] ^^^ (1#8 <<< b.val))) ≠ crc16 s

/-- CRC_COMPUTE: the CRC of BUF[0..LEN), or BAD_PARAM and no other effect when LEN is above 64. -/
def Obligations.CrcComputeResult : Prop :=
  ∀ s : State, s.seq = .idle →
    (s.regs.len.toNat ≤ 64 →
      exec .crcCompute s = .next (s.after 0
        { s.regs with cmd := 0x01, done := true, valid := false, full := false, errf := false, err := .none,
                      crc := crc16 (s.regs.buf.toList.take s.regs.len.toNat) } s.mem)) ∧
    (64 < s.regs.len.toNat →
      exec .crcCompute s = .next (s.after 0
        { s.regs with cmd := 0x01, done := true, valid := false, full := false, errf := true, err := .badParam } s.mem))

/-! ### The validity predicate and the entry encoder -/

/-- `Valid(raw)` = (true, k) exactly when raw[0] is not 0x00, the first 0x00 is at offset k, 1 to 61, and the two bytes after
it are the CRC of raw[0..k], most significant byte first. -/
def Obligations.ValidityPredicate : Prop :=
  ∀ (raw : List Byte) (k : Nat), raw.length = 64 →
    (validEntry raw = some k ↔
      1 ≤ k ∧ k ≤ 61 ∧ raw[k]? = some 0x00 ∧ (∀ j < k, raw[j]? ≠ some 0x00) ∧
        raw[k + 1]? = some (hiByte (crc16 (raw.take (k + 1)))) ∧ raw[k + 2]? = some (loByte (crc16 (raw.take (k + 1)))))

/-- Every encoded entry passes the predicate, whatever the rest of the slot holds, and yields its message. -/
def Obligations.EncodedEntriesAreValid : Prop :=
  ∀ (m rest : List Byte), 1 ≤ m.length → m.length ≤ 61 → (∀ b ∈ m, b ≠ 0x00) → (encodeEntry m ++ rest).length = 64 →
    validEntry (encodeEntry m ++ rest) = some m.length ∧ (encodeEntry m ++ rest).take m.length = m

/-- Corruption detection, with the restriction of 90_conflicts.md C3: a slot stops being valid when one bit of its string
flips, if that leaves the byte different from 0x00 or if the byte is the first. -/
def Obligations.SingleBitCorruptionIsDetected : Prop :=
  ∀ (raw : List Byte) (k j : Nat) (h : j < raw.length) (b : Fin 8), raw.length = 64 → validEntry raw = some k → j < k →
    (raw[j] ^^^ (1#8 <<< b.val) ≠ 0x00 ∨ j = 0) → validEntry (raw.set j (raw[j] ^^^ (1#8 <<< b.val))) = .none

/-! ### The log commands -/

/-- LOG_APPEND of a legal message to a log with a free slot: the entry goes into the first one; the address stored to is the
base of that slot, and no byte outside the entry changes. -/
def Obligations.AppendWritesTheFirstFreeSlot : Prop :=
  ∀ (s : State) (t : Fin 32) (m : List Byte), s.seq = .idle →
    m = s.regs.buf.toList.take s.regs.len.toNat → 1 ≤ s.regs.len.toNat → s.regs.len.toNat ≤ 61 → (∀ b ∈ m, b ≠ 0x00) →
    (∀ i < t.val, ¬ s.mem.FreeSlot i) → s.mem.FreeSlot t → s.NextSucceed (t.val + 2) →
    (exec .logAppend s = .next (s.after (t.val + 2)
      { s.regs with cmd := 0x02, done := true, valid := false, full := false, errf := false, err := .none,
                    crc := crc16 (m ++ [0x00]), rslt := t.castSucc }
      (s.mem.writeBytes (64 * t.val) (m ++ [0x00, hiByte (crc16 (m ++ [0x00])), loByte (crc16 (m ++ [0x00]))])))) ∧
    (∀ k, (s.mem.writeBytes (64 * t.val)
        (m ++ [0x00, hiByte (crc16 (m ++ [0x00])), loByte (crc16 (m ++ [0x00]))])).read k =
      if 64 * t.val ≤ k ∧ k < 64 * t.val + m.length + 3 then (encodeEntry m).getD (k - 64 * t.val) 0x00 else s.mem.read k)

/-- LOG_APPEND of a legal message to a full log: the first byte of every slot is erased, the entry goes into slot 0, and no
other byte changes. -/
def Obligations.AppendToAFullLogErasesFirst : Prop :=
  ∀ (s : State) (m : List Byte), s.seq = .idle →
    m = s.regs.buf.toList.take s.regs.len.toNat → 1 ≤ s.regs.len.toNat → s.regs.len.toNat ≤ 61 → (∀ b ∈ m, b ≠ 0x00) →
    (∀ i < 32, ¬ s.mem.FreeSlot i) → s.NextSucceed 65 →
    ∃ mem' : Memory,
      exec .logAppend s = .next (s.after 65
        { s.regs with cmd := 0x02, done := true, valid := false, full := true, errf := false, err := .none,
                      crc := crc16 (m ++ [0x00]), rslt := 0 } mem') ∧
      (∀ k, mem'.read k =
        if k < m.length + 3 then (encodeEntry m).getD k 0x00
        else if k < 2048 ∧ k % 64 = 0 then 0x00 else s.mem.read k)

/-- LOG_APPEND with LEN 0, LEN above 61 or a 0x00 in the message: INVALID_ENTRY before any transaction, and no other
effect. -/
def Obligations.AppendOfAnIllegalMessage : Prop :=
  ∀ s : State, s.seq = .idle →
    s.regs.len.toNat = 0 ∨ 61 < s.regs.len.toNat ∨ 0x00 ∈ s.regs.buf.toList.take s.regs.len.toNat →
    exec .logAppend s = .next (s.after 0
      { s.regs with cmd := 0x02, done := true, valid := false, full := false, errf := true, err := .invalidEntry } s.mem)

/-- LOG_APPEND of a legal message when a transaction fails: a scan read (memory untouched), an erase write of a full log
(the slots below erased, the byte written unspecified, the rest untouched), or the entry write (its bytes unspecified, the
rest untouched). -/
def Obligations.AppendIoErrors : Prop :=
  ∀ (s : State) (m : List Byte), s.seq = .idle →
    m = s.regs.buf.toList.take s.regs.len.toNat → 1 ≤ s.regs.len.toNat → s.regs.len.toNat ≤ 61 → (∀ b ∈ m, b ≠ 0x00) →
    (∀ i < 32, (∀ j < i, ¬ s.mem.FreeSlot j) → s.FirstFailure i →
      exec .logAppend s = .next (s.after (i + 1)
        { s.regs with cmd := 0x02, done := true, valid := false, full := false, errf := true, err := .ioError,
                      faddr := BitVec.ofNat 16 (64 * i) } s.mem)) ∧
    (∀ i < 32, (∀ j < 32, ¬ s.mem.FreeSlot j) → s.FirstFailure (32 + i) →
      ∃ mem', exec .logAppend s = .next (s.after (33 + i)
          { s.regs with cmd := 0x02, done := true, valid := false, full := false, errf := true, err := .ioError,
                        faddr := BitVec.ofNat 16 (64 * i) } mem') ∧
        ∀ k, mem'.read k =
          if k = 64 * i then Config.tornByte (s.draws + 32 + i) 0
          else if k < 64 * i ∧ k % 64 = 0 then 0x00 else s.mem.read k) ∧
    (∀ t < 32, (∀ j < t, ¬ s.mem.FreeSlot j) → s.mem.FreeSlot t → s.FirstFailure (t + 1) →
      ∃ mem', exec .logAppend s = .next (s.after (t + 2)
          { s.regs with cmd := 0x02, done := true, valid := false, full := false, errf := true, err := .ioError,
                        faddr := BitVec.ofNat 16 (64 * t) } mem') ∧
        ∀ k, mem'.read k =
          if 64 * t ≤ k ∧ k < 64 * t + m.length + 3 then Config.tornByte (s.draws + t + 1) (k - 64 * t)
          else s.mem.read k) ∧
    ((∀ j < 32, ¬ s.mem.FreeSlot j) → s.FirstFailure 64 →
      ∃ mem', exec .logAppend s = .next (s.after 65
          { s.regs with cmd := 0x02, done := true, valid := false, full := false, errf := true, err := .ioError,
                        faddr := 0x0000 } mem') ∧
        ∀ k, mem'.read k =
          if k < m.length + 3 then Config.tornByte (s.draws + 64) k
          else if k < 2048 ∧ k % 64 = 0 then 0x00 else s.mem.read k)

/-- LOG_ERASE: the first byte of every slot becomes 0x00, slot 0 first, and no other byte changes; when the write to slot i
fails, the slots below are erased, its first byte is unspecified and the slots above are untouched. -/
def Obligations.EraseResult : Prop :=
  ∀ s : State, s.seq = .idle →
    (s.NextSucceed 32 →
      ∃ mem', exec .logErase s = .next (s.after 32
          { s.regs with cmd := 0x03, done := true, valid := false, full := false, errf := false, err := .none } mem') ∧
        ∀ k, mem'.read k = if k < 2048 ∧ k % 64 = 0 then 0x00 else s.mem.read k) ∧
    (∀ i < 32, s.FirstFailure i →
      ∃ mem', exec .logErase s = .next (s.after (i + 1)
          { s.regs with cmd := 0x03, done := true, valid := false, full := false, errf := true, err := .ioError,
                        faddr := BitVec.ofNat 16 (64 * i) } mem') ∧
        ∀ k, mem'.read k =
          if k = 64 * i then Config.tornByte (s.draws + i) 0
          else if k < 64 * i ∧ k % 64 = 0 then 0x00 else s.mem.read k)

/-- LOG_FIND_FREE: RSLT is the first free slot with FULL 0, or 32 with FULL 1; IO_ERROR when a scan read fails. Memory is
never written. -/
def Obligations.FindFreeResult : Prop :=
  ∀ s : State, s.seq = .idle →
    (∀ t : Fin 32, (∀ i < t.val, ¬ s.mem.FreeSlot i) → s.mem.FreeSlot t → s.NextSucceed (t.val + 1) →
      exec .logFindFree s = .next (s.after (t.val + 1)
        { s.regs with cmd := 0x07, done := true, valid := false, full := false, errf := false, err := .none,
                      rslt := t.castSucc } s.mem)) ∧
    ((∀ i < 32, ¬ s.mem.FreeSlot i) → s.NextSucceed 32 →
      exec .logFindFree s = .next (s.after 32
        { s.regs with cmd := 0x07, done := true, valid := false, full := true, errf := false, err := .none,
                      rslt := 32 } s.mem)) ∧
    (∀ i < 32, (∀ j < i, ¬ s.mem.FreeSlot j) → s.FirstFailure i →
      exec .logFindFree s = .next (s.after (i + 1)
        { s.regs with cmd := 0x07, done := true, valid := false, full := false, errf := true, err := .ioError,
                      faddr := BitVec.ofNat 16 (64 * i) } s.mem))

/-- LOG_READ_RESET: CURSOR 0 and END 0; LEN, BUF and memory unchanged, no transaction. -/
def Obligations.ReadResetResult : Prop :=
  ∀ s : State, s.seq = .idle →
    exec .logReadReset s = .next (s.after 0
      { s.regs with cmd := 0x04, done := true, valid := false, full := false, errf := false, err := .none,
                    cursor := 0, ended := false } s.mem)

/-- LOG_READ_NEXT: the sequence already over (no transaction); a valid slot (an item, CURSOR moves on); a slot that is not
valid (the sequence ends, CURSOR stays); a read that fails (CURSOR, END, LEN, BUF unchanged). Memory is never written. -/
def Obligations.ReadNextResult : Prop :=
  ∀ s : State, s.seq = .idle →
    (s.regs.ended = true ∨ s.regs.cursor = 32 →
      exec .logReadNext s = .next (s.after 0
        { s.regs with cmd := 0x05, done := true, valid := false, full := false, errf := false, err := .none,
                      ended := true, len := 0x00 } s.mem)) ∧
    (∀ i : Fin 32, s.regs.ended = false → s.regs.cursor = i.castSucc →
      (∀ k, s.failsAt 0 = false → validEntry (s.mem.slotBytes i) = some k →
        ∃ b : Buffer, b.toList = s.mem.slotBytes i ∧
          exec .logReadNext s = .next (s.after 1
            { s.regs with cmd := 0x05, done := true, valid := true, full := false, errf := false, err := .none,
                          cursor := i.succ, len := BitVec.ofNat 8 k, buf := b } s.mem)) ∧
      (s.failsAt 0 = false → validEntry (s.mem.slotBytes i) = .none →
        ∃ b : Buffer, b.toList = s.mem.slotBytes i ∧
          exec .logReadNext s = .next (s.after 1
            { s.regs with cmd := 0x05, done := true, valid := false, full := false, errf := false, err := .none,
                          ended := true, len := 0x00, buf := b } s.mem)) ∧
      (s.failsAt 0 = true →
        exec .logReadNext s = .next (s.after 1
          { s.regs with cmd := 0x05, done := true, valid := false, full := false, errf := true, err := .ioError,
                        faddr := BitVec.ofNat 16 (64 * i.val) } s.mem)))

/-- LOG_CHECK_SLOT: BAD_PARAM for SLOT above 31, before any transaction; else the predicate on that slot, CURSOR and END
unchanged; IO_ERROR when the read fails, BUF and LEN unchanged. Memory is never written. -/
def Obligations.CheckSlotResult : Prop :=
  ∀ s : State, s.seq = .idle →
    (31 < s.regs.slot.toNat →
      exec .logCheckSlot s = .next (s.after 0
        { s.regs with cmd := 0x06, done := true, valid := false, full := false, errf := true, err := .badParam } s.mem)) ∧
    (s.regs.slot.toNat ≤ 31 → s.failsAt 0 = false →
      ∃ b : Buffer, b.toList = s.mem.slotBytes s.regs.slot.toNat ∧
        exec .logCheckSlot s = .next (s.after 1
          { s.regs with cmd := 0x06, done := true, full := false, errf := false, err := .none, buf := b
                        valid := (validEntry (s.mem.slotBytes s.regs.slot.toNat)).isSome
                        len := match validEntry (s.mem.slotBytes s.regs.slot.toNat) with
                          | some k => BitVec.ofNat 8 k
                          | .none => 0x00 } s.mem)) ∧
    (s.regs.slot.toNat ≤ 31 → s.failsAt 0 = true →
      exec .logCheckSlot s = .next (s.after 1
        { s.regs with cmd := 0x06, done := true, valid := false, full := false, errf := true, err := .ioError,
                      faddr := BitVec.ofNat 16 (64 * s.regs.slot.toNat) } s.mem))

/-! ### The raw memory commands and the illegal opcodes -/

/-- The range check of 42_raw_memory.md R201, made before any transaction, for both raw commands: out of range is BAD_PARAM
and no other effect; in range every byte addressed exists. -/
def Obligations.RawRangeCheck : Prop :=
  ∀ (s : State) (a n : Nat), s.seq = .idle → a = s.regs.addrHi.toNat * 256 + s.regs.addrLo.toNat → n = s.regs.len.toNat →
    (¬ (a ≤ 32767 ∧ 1 ≤ n ∧ n ≤ 64 ∧ a % 64 + n ≤ 64) →
      exec .memRead s = .next (s.after 0
        { s.regs with cmd := 0x08, done := true, valid := false, full := false, errf := true, err := .badParam } s.mem) ∧
      exec .memWrite s = .next (s.after 0
        { s.regs with cmd := 0x09, done := true, valid := false, full := false, errf := true, err := .badParam } s.mem)) ∧
    (a ≤ 32767 ∧ 1 ≤ n ∧ n ≤ 64 ∧ a % 64 + n ≤ 64 → a + n ≤ 32768)

/-- MEM_READ in range: BUF[0..LEN) gets the bytes, BUF from LEN on is unchanged, memory is untouched; IO_ERROR when the read
fails, BUF unchanged. -/
def Obligations.MemReadResult : Prop :=
  ∀ (s : State) (a n : Nat), s.seq = .idle → a = s.regs.addrHi.toNat * 256 + s.regs.addrLo.toNat → n = s.regs.len.toNat →
    a ≤ 32767 → 1 ≤ n → n ≤ 64 → a % 64 + n ≤ 64 →
    (s.failsAt 0 = false →
      ∃ b : Buffer, b.toList = s.mem.readBytes a n ++ s.regs.buf.toList.drop n ∧
        exec .memRead s = .next (s.after 1
          { s.regs with cmd := 0x08, done := true, valid := false, full := false, errf := false, err := .none,
                        buf := b } s.mem)) ∧
    (s.failsAt 0 = true →
      exec .memRead s = .next (s.after 1
        { s.regs with cmd := 0x08, done := true, valid := false, full := false, errf := true, err := .ioError,
                      faddr := BitVec.ofNat 16 a } s.mem))

/-- MEM_WRITE in range: the bytes BUF[0..LEN) are stored at ADDR and no other byte changes; IO_ERROR when the write fails,
its range unspecified. -/
def Obligations.MemWriteResult : Prop :=
  ∀ (s : State) (a n : Nat), s.seq = .idle → a = s.regs.addrHi.toNat * 256 + s.regs.addrLo.toNat → n = s.regs.len.toNat →
    a ≤ 32767 → 1 ≤ n → n ≤ 64 → a % 64 + n ≤ 64 →
    (s.failsAt 0 = false →
      ∃ mem', exec .memWrite s = .next (s.after 1
          { s.regs with cmd := 0x09, done := true, valid := false, full := false, errf := false, err := .none } mem') ∧
        ∀ k, mem'.read k = if a ≤ k ∧ k < a + n then s.regs.buf.toList.getD (k - a) 0x00 else s.mem.read k) ∧
    (s.failsAt 0 = true →
      ∃ mem', exec .memWrite s = .next (s.after 1
          { s.regs with cmd := 0x09, done := true, valid := false, full := false, errf := true, err := .ioError,
                        faddr := BitVec.ofNat 16 a } mem') ∧
        ∀ k, mem'.read k = if a ≤ k ∧ k < a + n then Config.tornByte s.draws (k - a) else s.mem.read k)

/-- An illegal opcode, 0x00 or 0x0A to 0xFF, written by the host: ILLEGAL_CMD, CMD reads it back, no other effect, no
transaction; the block is IDLE again. -/
def Obligations.IllegalOpcodeResult : Prop :=
  ∀ (s : State) (op : Byte), s.seq = .idle → op = 0x00 ∨ 0x0A ≤ op.toNat →
    decodeByte op = .illegal op ∧
    exec (.illegal op) s = .next (s.after 0
      { s.regs with cmd := op, done := true, valid := false, full := false, errf := true, err := .illegalCmd } s.mem) ∧
    (∀ rest : List Input, s.inputs = .run op :: rest →
      step s = .next ({ s with inputs := rest }.after 0
        { s.regs with cmd := op, done := true, valid := false, full := false, errf := true, err := .illegalCmd } s.mem))

/-! ### Rules about all commands -/

/-- Which command can end with which error (60_exceptions.md R222). -/
def Obligations.ErrorsOfEachCommand : Prop :=
  ∀ (i : Instr) (s t : State), s.seq = .idle → exec i s = .next t →
    match i with
    | .crcCompute => t.regs.err = .none ∨ t.regs.err = .badParam
    | .logAppend => t.regs.err = .none ∨ t.regs.err = .invalidEntry ∨ t.regs.err = .ioError
    | .logErase | .logReadNext | .logFindFree => t.regs.err = .none ∨ t.regs.err = .ioError
    | .logReadReset => t.regs.err = .none
    | .logCheckSlot | .memRead | .memWrite => t.regs.err = .none ∨ t.regs.err = .ioError ∨ t.regs.err = .badParam
    | .illegal _ => t.regs.err = .illegalCmd

/-- Which command changes which result register (10_state.md R28 to R31, R35): CRC, RSLT, FADDR, CURSOR, END, LEN and BUF
change only by the commands named, CRC and RSLT only without an error, FADDR only with IO_ERROR; a command that fails
changes none of the others. -/
def Obligations.ResultRegistersChangeOnlyByTheirCommands : Prop :=
  ∀ (i : Instr) (s t : State), s.seq = .idle → exec i s = .next t →
    (t.regs.crc ≠ s.regs.crc → (i = .crcCompute ∨ i = .logAppend) ∧ t.regs.err = .none) ∧
    (t.regs.rslt ≠ s.regs.rslt → (i = .logAppend ∨ i = .logFindFree) ∧ t.regs.err = .none) ∧
    (t.regs.faddr ≠ s.regs.faddr → t.regs.err = .ioError) ∧
    (t.regs.cursor ≠ s.regs.cursor → (i = .logReadReset ∨ i = .logReadNext) ∧ t.regs.err = .none) ∧
    (t.regs.ended ≠ s.regs.ended → (i = .logReadReset ∨ i = .logReadNext) ∧ t.regs.err = .none) ∧
    (t.regs.len ≠ s.regs.len → (i = .logReadNext ∨ i = .logCheckSlot) ∧ t.regs.err = .none) ∧
    (t.regs.buf ≠ s.regs.buf → (i = .logReadNext ∨ i = .logCheckSlot ∨ i = .memRead) ∧ t.regs.err = .none) ∧
    (t.regs.valid = true → i = .logReadNext ∨ i = .logCheckSlot) ∧
    (t.regs.full = true → i = .logAppend ∨ i = .logFindFree)

/-- No command changes ADDR, SLOT or OVERRUN, the rest of the script or what the host has read. The bytes of memory that can
differ after a command, whether it fails or not: for LOG_APPEND, in the log region, the first `LEN + 3` bytes of a slot, which
is as long as the entry (the byte that an erase writes is the first of them); for LOG_ERASE, the first byte of a slot; for
MEM_WRITE, the `LEN` bytes from ADDR on; for any other command, none. -/
def Obligations.CommandsKeepEverythingElse : Prop :=
  ∀ (i : Instr) (s t : State), s.seq = .idle → exec i s = .next t →
    t.regs.addrHi = s.regs.addrHi ∧ t.regs.addrLo = s.regs.addrLo ∧ t.regs.slot = s.regs.slot ∧
    t.regs.overrun = s.regs.overrun ∧ t.inputs = s.inputs ∧ t.rdata = s.rdata ∧
    (∀ a, t.mem.read a ≠ s.mem.read a →
      (i = .logAppend ∧ a < 2048 ∧ a % 64 < s.regs.len.toNat + 3) ∨
      (i = .logErase ∧ a < 2048 ∧ a % 64 = 0) ∨
      (i = .memWrite ∧ a < 32768 ∧ s.regs.addr.toNat ≤ a ∧ a < s.regs.addr.toNat + s.regs.len.toNat))

/-- While a command runs, the host sees the registers of before its completion: a step after which it still runs changes no
register but OVERRUN (10_state.md R37). -/
def Obligations.RegistersStandStillWhileBusy : Prop :=
  ∀ (s t : State) (c c' : Command), s.seq = .busy c → step s = .next t → t.seq = .busy c' →
    t.regs = { s.regs with overrun := t.regs.overrun }

/-- OVERRUN stays 1 through every step but a host write to STATUS with bit 6 = 1 and a reset (60_exceptions.md R228). -/
def Obligations.OverrunIsSticky : Prop :=
  ∀ s t : State, s.regs.overrun = true → step s = .next t → t.regs.overrun = false →
    (∃ v rest, s.inputs = .write 0x01 v :: rest ∧ v.getLsbD 6 = true) ∨ ∃ cutting rest, s.inputs = .reset cutting :: rest

/-- The settle time and the timer change nothing that a command leaves (70_reset_and_hazards.md R276): with another T_WC and
another timer value, the same command leaves the same state, but for T_WC itself. -/
def Obligations.TimingChangesNoResult : Prop :=
  ∀ (i : Instr) (s t : State) (tWc twc : Nat), s.seq = .idle → exec i s = .next t →
    exec i { s with tWc := tWc, twc := twc } = .next { t with tWc := tWc }

/-- The only log state is the memory (10_state.md R45): two machines with the same memory, the same message (LEN, and the first
LEN bytes of BUF) and the same draws append alike, whatever their CURSOR, END, the rest of BUF and every other register hold.
So an append of a message loaded after a reset writes the slot it would have written without the reset (41_log.md R173). -/
def Obligations.AppendDependsOnMemoryAndMessageOnly : Prop :=
  ∀ s s' t : State, s.seq = .idle → s'.seq = .idle → s'.mem = s.mem → s'.regs.len = s.regs.len →
    s'.regs.buf.toList.take s.regs.len.toNat = s.regs.buf.toList.take s.regs.len.toNat →
    s'.answers = s.answers → s'.draws = s.draws → exec .logAppend s = .next t →
    ∃ t', exec .logAppend s' = .next t' ∧ t'.mem = t.mem ∧ t'.regs.err = t.regs.err ∧ t'.regs.full = t.regs.full ∧
      (t.regs.err = .none → t'.regs.rslt = t.regs.rslt ∧ t'.regs.crc = t.regs.crc)

/-! ### The log as a whole -/

/-- After LOG_READ_RESET the host's read loop collects the strings of the slots 0, 1, ... up to the first slot that is not
valid, when no transaction fails. -/
def Obligations.ReadSequenceYieldsTheItems : Prop :=
  ∀ s : State, s.seq = .idle → s.NextSucceed 32 →
    ∃ t, exec .logReadReset s = .next t ∧ collectItems 33 t = s.mem.items

/-- LOG_ERASE leaves a well-formed log of count 0 from any memory, whose read sequence is empty, and erasing again changes
no byte, when no transaction fails. -/
def Obligations.EraseLeavesAnEmptyLog : Prop :=
  ∀ s : State, s.seq = .idle → s.NextSucceed 64 →
    ∃ t u, exec .logErase s = .next t ∧ t.mem.WellFormedLog 0 ∧ t.mem.items = [] ∧
      exec .logErase t = .next u ∧ ∀ k, u.mem.read k = t.mem.read k

/-- LOG_APPEND of a legal message on a well-formed log of count t, when no transaction fails: count t + 1 with the message in
slot t and last in the read sequence when t < 32; count 1 with the message in slot 0 and alone when t = 32. -/
def Obligations.AppendKeepsTheLogWellFormed : Prop :=
  ∀ (s : State) (n : Nat) (m : List Byte), s.seq = .idle → s.mem.WellFormedLog n →
    m = s.regs.buf.toList.take s.regs.len.toNat → 1 ≤ s.regs.len.toNat → s.regs.len.toNat ≤ 61 → (∀ b ∈ m, b ≠ 0x00) →
    s.NextSucceed 65 →
    ∃ t, exec .logAppend s = .next t ∧ t.regs.err = .none ∧
      (n < 32 → t.mem.WellFormedLog (n + 1) ∧ t.mem.item n = some m ∧ t.mem.items = s.mem.items ++ [m] ∧
        t.regs.rslt.val = n ∧ t.regs.full = false) ∧
      (n = 32 → t.mem.WellFormedLog 1 ∧ t.mem.item 0 = some m ∧ t.mem.items = [m] ∧
        t.regs.rslt.val = 0 ∧ t.regs.full = true)

/-- Round trip: an append of a legal message on a well-formed log, then LOG_READ_RESET, then the read loop: the last item is
the message, when no transaction fails. -/
def Obligations.AppendThenReadYieldsTheMessageLast : Prop :=
  ∀ (s : State) (n : Nat) (m : List Byte), s.seq = .idle → s.mem.WellFormedLog n →
    m = s.regs.buf.toList.take s.regs.len.toNat → 1 ≤ s.regs.len.toNat → s.regs.len.toNat ≤ 61 → (∀ b ∈ m, b ≠ 0x00) →
    s.NextSucceed 97 →
    ∃ t u, exec .logAppend s = .next t ∧ exec .logReadReset t = .next u ∧ (collectItems 33 u).getLast? = some m

/-! ### The invariant -/

/-- The invariant holds at reset. -/
def Obligations.ResetStateHasTheInvariant : Prop := State.reset.Inv

/-- Every step keeps the invariant: the memory's canonical form, the timer's bound, ERRF and ERR in agreement, and a running
command in agreement with the registers. -/
def Obligations.StepKeepsTheInvariant : Prop :=
  ∀ s t : State, s.Inv → step s = .next t → t.Inv

/-- No step stops the machine, and none changes the parameters T_WC and MEM_INIT. -/
def Obligations.StepAlwaysGoesOnAndKeepsTheParameters : Prop :=
  ∀ s : State, ∃ t, step s = .next t ∧ t.tWc = s.tWc ∧ t.mem.init = s.mem.init ∧ s.draws ≤ t.draws
end

