-- ==== Sys2Proof/Laws/Memory.lean ====
section
/-! SUPPORT. The laws of the attached memory: what a read sees after a write, and that every operation keeps the canonical
form. -/

namespace Sys2Proof.Machine

/-! ### One cell -/

theorem lookupCell_insertCell (a k : Nat) (b : Byte) (cs : List Host.Cell) :
    lookupCell k (insertCell a b cs) = if k = a then some b else lookupCell k cs := by
  induction cs with
  | nil => simp [insertCell, lookupCell, eq_comm]
  | cons c cs ih =>
    obtain ⟨x, y⟩ := c
    simp only [insertCell]
    split
    · simp only [lookupCell]; split <;> simp_all [eq_comm]
    · split
      · subst_vars; simp only [lookupCell]; split <;> simp_all [eq_comm]
      · simp only [lookupCell, ih]; split <;> simp_all [eq_comm]

theorem lookupCell_eraseCell (a k : Nat) (cs : List Host.Cell) :
    lookupCell k (eraseCell a cs) = if k = a then .none else lookupCell k cs := by
  induction cs with
  | nil => simp [eraseCell, lookupCell]
  | cons c cs ih =>
    obtain ⟨x, y⟩ := c
    simp only [eraseCell]
    split
    · rw [ih]
      split
      · rfl
      · simp only [lookupCell]; rw [if_neg (by omega)]
    · simp only [lookupCell, ih]; split <;> simp_all [eq_comm]

theorem mem_insertCell {a : Nat} {b : Byte} {cs : List Host.Cell} {c : Host.Cell} (h : c ∈ insertCell a b cs) :
    c = (a, b) ∨ c ∈ cs := by
  induction cs with
  | nil => simpa [insertCell] using h
  | cons d cs ih =>
    simp only [insertCell] at h
    split at h
    · simpa using h
    · split at h
      · rcases List.mem_cons.1 h with h | h <;> simp [h]
      · rcases List.mem_cons.1 h with h | h
        · simp [h]
        · rcases ih h with h | h <;> simp [h]

theorem mem_eraseCell {a : Nat} {cs : List Host.Cell} {c : Host.Cell} (h : c ∈ eraseCell a cs) : c ∈ cs := by
  induction cs with
  | nil => simp [eraseCell] at h
  | cons d cs ih =>
    simp only [eraseCell] at h
    split at h
    · exact List.mem_cons_of_mem _ (ih h)
    · rcases List.mem_cons.1 h with h | h
      · simp [h]
      · simp [ih h]

theorem pairwise_insertCell (a : Nat) (b : Byte) (cs : List Host.Cell) (hs : cs.Pairwise (fun x y => x.1 < y.1)) :
    (insertCell a b cs).Pairwise (fun x y => x.1 < y.1) := by
  induction cs with
  | nil => simp [insertCell]
  | cons c cs ih =>
    obtain ⟨x, y⟩ := c
    have hs' := List.pairwise_cons.1 hs
    simp only [insertCell]
    split
    · refine List.pairwise_cons.2 ⟨fun d hd => ?_, hs⟩
      rcases List.mem_cons.1 hd with rfl | hd
      · assumption
      · have := hs'.1 d hd; simp only at *; omega
    · split
      · subst_vars; exact List.pairwise_cons.2 ⟨hs'.1, hs'.2⟩
      · refine List.pairwise_cons.2 ⟨fun d hd => ?_, ih hs'.2⟩
        rcases mem_insertCell hd with rfl | hd
        · simp only at *; omega
        · exact hs'.1 d hd

theorem pairwise_eraseCell (a : Nat) (cs : List Host.Cell) (hs : cs.Pairwise (fun x y => x.1 < y.1)) :
    (eraseCell a cs).Pairwise (fun x y => x.1 < y.1) := by
  induction cs with
  | nil => simp [eraseCell]
  | cons c cs ih =>
    have hs' := List.pairwise_cons.1 hs
    simp only [eraseCell]
    split
    · exact ih hs'.2
    · exact List.pairwise_cons.2 ⟨fun d hd => hs'.1 d (mem_eraseCell hd), ih hs'.2⟩

/-! ### One byte -/

theorem Memory.wf_iff (m : Memory) : m.wf = true ↔ m.Canonical := by simp [Memory.wf]

@[simp] theorem Memory.write_init (m : Memory) (a : Nat) (b : Byte) : (m.write a b).init = m.init := by
  unfold Memory.write; split <;> rfl

theorem Memory.write_wf {m : Memory} (h : m.wf = true) (a : Nat) (b : Byte) : (m.write a b).wf = true := by
  rw [Memory.wf_iff] at *
  unfold Memory.write
  split
  · rename_i ha
    refine ⟨?_, fun c hc => ?_⟩
    · simp only; split
      · exact pairwise_eraseCell a _ h.1
      · exact pairwise_insertCell a b _ h.1
    · simp only at hc; split at hc
      · exact h.2 c (mem_eraseCell hc)
      · rcases mem_insertCell hc with rfl | hc
        · exact ⟨ha, by assumption⟩
        · exact h.2 c hc
  · exact h

/-- What a read sees after a write. -/
theorem Memory.read_write (m : Memory) {a : Nat} (b : Byte) (k : Nat) (ha : a < Config.memSize) :
    (m.write a b).read k = if k = a then b else m.read k := by
  unfold Memory.write Memory.read
  rw [if_pos ha]
  simp only
  by_cases hb : b = m.init.at a
  · rw [if_pos hb, lookupCell_eraseCell a k]
    split
    · subst_vars; rfl
    · rfl
  · rw [if_neg hb, lookupCell_insertCell]
    split <;> rfl

/-- A read outside the byte written sees what it saw before, wherever that byte is. -/
theorem Memory.read_write_other (m : Memory) {a k : Nat} (b : Byte) (h : k ≠ a) : (m.write a b).read k = m.read k := by
  by_cases ha : a < Config.memSize
  · rw [Memory.read_write m b k ha, if_neg h]
  · rw [Memory.write, if_neg ha]

/-! ### Sequences of bytes -/

@[simp] theorem Memory.readBytes_length (m : Memory) (a n : Nat) : (m.readBytes a n).length = n := by
  simp [Memory.readBytes]

@[simp] theorem Memory.readBytes_getElem (m : Memory) (a n j : Nat) (h : j < (m.readBytes a n).length) :
    (m.readBytes a n)[j] = m.read (a + j) := by
  simp [Memory.readBytes]

theorem Memory.readBytes_getD (m : Memory) {n j : Nat} (a : Nat) (d : Byte) (h : j < n) :
    (m.readBytes a n).getD j d = m.read (a + j) := by
  simp [Memory.readBytes, List.getD, h]

theorem Memory.readBytes_one (m : Memory) (a : Nat) : m.readBytes a 1 = [m.read a] := by
  simp [Memory.readBytes]

theorem Memory.readBytes_congr {m m' : Memory} {a n : Nat} (h : ∀ j < n, m'.read (a + j) = m.read (a + j)) :
    m'.readBytes a n = m.readBytes a n := by
  unfold Memory.readBytes
  exact List.map_congr_left fun j hj => h j (List.mem_range.1 hj)

@[simp] theorem Memory.writeBytes_init (m : Memory) (a : Nat) (v : List Byte) : (m.writeBytes a v).init = m.init := by
  induction v generalizing m a with
  | nil => rfl
  | cons b bs ih => simp [Memory.writeBytes, ih]

/-- Every write of the memory keeps its canonical form. -/
theorem Memory.writeBytes_wf {m : Memory} (h : m.wf = true) (a : Nat) (v : List Byte) :
    (m.writeBytes a v).wf = true := by
  induction v generalizing m a with
  | nil => exact h
  | cons b bs ih => exact ih (Memory.write_wf h a b) (a + 1)

/-- What a read sees after a write of several bytes. -/
theorem Memory.read_writeBytes (m : Memory) {a : Nat} (v : List Byte) (k : Nat) (ha : a + v.length ≤ Config.memSize) :
    (m.writeBytes a v).read k = if a ≤ k ∧ k < a + v.length then v.getD (k - a) 0 else m.read k := by
  induction v generalizing m a with
  | nil => simp [Memory.writeBytes]
  | cons b bs ih =>
    simp only [List.length_cons, Config.memSize] at ha
    simp only [Memory.writeBytes]
    rw [ih _ (by simp only [Config.memSize]; omega), Memory.read_write m b k (by simp only [Config.memSize]; omega)]
    simp only [List.length_cons]
    by_cases hk : k = a
    · subst hk
      rw [if_neg (by omega), if_pos rfl, if_pos (by omega)]
      simp
    · by_cases hin : a + 1 ≤ k ∧ k < a + 1 + bs.length
      · rw [if_pos hin, if_pos (by omega)]
        have : k - a = (k - (a + 1)) + 1 := by omega
        rw [this]; simp [List.getD]
      · rw [if_neg hin, if_neg hk, if_neg (by omega)]

theorem Memory.read_writeBytes_other (m : Memory) {a k : Nat} (v : List Byte) (h : k < a ∨ a + v.length ≤ k) :
    (m.writeBytes a v).read k = m.read k := by
  induction v generalizing m a with
  | nil => rfl
  | cons b bs ih =>
    simp only [List.length_cons] at h
    simp only [Memory.writeBytes]
    rw [ih _ (by omega), Memory.read_write_other m b (by omega)]

@[simp] theorem tornBytes_length (d n : Nat) : (tornBytes d n).length = n := by simp [tornBytes]

end Sys2Proof.Machine
end

