-- ==== Sys2Proof/Laws/State.lean ====
section
/-! SUPPORT. One lemma per field per update of the state, true by unfolding, so that no later proof unfolds a record
update. -/

namespace Sys2Proof.Machine

variable (s : State)

/-! ### drawn -/

@[simp] theorem State.drawn_regs : (s.drawn).regs = s.regs := rfl
@[simp] theorem State.drawn_seq : (s.drawn).seq = s.seq := rfl
@[simp] theorem State.drawn_twc : (s.drawn).twc = s.twc := rfl
@[simp] theorem State.drawn_mem : (s.drawn).mem = s.mem := rfl
@[simp] theorem State.drawn_tWc : (s.drawn).tWc = s.tWc := rfl
@[simp] theorem State.drawn_answers : (s.drawn).answers = s.answers.tail := rfl
@[simp] theorem State.drawn_draws : (s.drawn).draws = s.draws + 1 := rfl
@[simp] theorem State.drawn_inputs : (s.drawn).inputs = s.inputs := rfl
@[simp] theorem State.drawn_rdata : (s.drawn).rdata = s.rdata := rfl

/-! ### goto -/

@[simp] theorem State.goto_regs (c : Command) (p : Position) : (s.goto c p).regs = s.regs := rfl
@[simp] theorem State.goto_seq (c : Command) (p : Position) : (s.goto c p).seq = .busy { c with pos := p } := rfl
@[simp] theorem State.goto_twc (c : Command) (p : Position) : (s.goto c p).twc = s.twc := rfl
@[simp] theorem State.goto_mem (c : Command) (p : Position) : (s.goto c p).mem = s.mem := rfl
@[simp] theorem State.goto_tWc (c : Command) (p : Position) : (s.goto c p).tWc = s.tWc := rfl
@[simp] theorem State.goto_answers (c : Command) (p : Position) : (s.goto c p).answers = s.answers := rfl
@[simp] theorem State.goto_draws (c : Command) (p : Position) : (s.goto c p).draws = s.draws := rfl
@[simp] theorem State.goto_inputs (c : Command) (p : Position) : (s.goto c p).inputs = s.inputs := rfl
@[simp] theorem State.goto_rdata (c : Command) (p : Position) : (s.goto c p).rdata = s.rdata := rfl

/-! ### settle -/

@[simp] theorem State.settle_regs : (s.settle).regs = s.regs := rfl
@[simp] theorem State.settle_seq : (s.settle).seq = s.seq := rfl
@[simp] theorem State.settle_twc : (s.settle).twc = 0 := rfl
@[simp] theorem State.settle_mem : (s.settle).mem = s.mem := rfl
@[simp] theorem State.settle_tWc : (s.settle).tWc = s.tWc := rfl
@[simp] theorem State.settle_answers : (s.settle).answers = s.answers := rfl
@[simp] theorem State.settle_draws : (s.settle).draws = s.draws := rfl
@[simp] theorem State.settle_inputs : (s.settle).inputs = s.inputs := rfl
@[simp] theorem State.settle_rdata : (s.settle).rdata = s.rdata := rfl

/-! ### tick -/

@[simp] theorem State.tick_regs : (s.tick).regs = s.regs := rfl
@[simp] theorem State.tick_seq : (s.tick).seq = s.seq := rfl
@[simp] theorem State.tick_twc : (s.tick).twc = s.twc - 1 := rfl
@[simp] theorem State.tick_mem : (s.tick).mem = s.mem := rfl
@[simp] theorem State.tick_tWc : (s.tick).tWc = s.tWc := rfl
@[simp] theorem State.tick_answers : (s.tick).answers = s.answers := rfl
@[simp] theorem State.tick_draws : (s.tick).draws = s.draws := rfl
@[simp] theorem State.tick_inputs : (s.tick).inputs = s.inputs := rfl
@[simp] theorem State.tick_rdata : (s.tick).rdata = s.rdata := rfl

/-! ### accept -/

@[simp] theorem State.accept_regs (i : Instr) : (s.accept i).regs = { s.regs with cmd := i.opcode, done := false } := rfl
@[simp] theorem State.accept_seq (i : Instr) : (s.accept i).seq = .busy { instr := i, ops := s.regs.sample, pos := .check } := rfl
@[simp] theorem State.accept_twc (i : Instr) : (s.accept i).twc = s.twc := rfl
@[simp] theorem State.accept_mem (i : Instr) : (s.accept i).mem = s.mem := rfl
@[simp] theorem State.accept_tWc (i : Instr) : (s.accept i).tWc = s.tWc := rfl
@[simp] theorem State.accept_answers (i : Instr) : (s.accept i).answers = s.answers := rfl
@[simp] theorem State.accept_draws (i : Instr) : (s.accept i).draws = s.draws := rfl
@[simp] theorem State.accept_inputs (i : Instr) : (s.accept i).inputs = s.inputs := rfl
@[simp] theorem State.accept_rdata (i : Instr) : (s.accept i).rdata = s.rdata := rfl

/-! ### dropWrite -/

@[simp] theorem State.dropWrite_regs : (s.dropWrite).regs = { s.regs with overrun := true } := rfl
@[simp] theorem State.dropWrite_seq : (s.dropWrite).seq = s.seq := rfl
@[simp] theorem State.dropWrite_twc : (s.dropWrite).twc = s.twc := rfl
@[simp] theorem State.dropWrite_mem : (s.dropWrite).mem = s.mem := rfl
@[simp] theorem State.dropWrite_tWc : (s.dropWrite).tWc = s.tWc := rfl
@[simp] theorem State.dropWrite_answers : (s.dropWrite).answers = s.answers := rfl
@[simp] theorem State.dropWrite_draws : (s.dropWrite).draws = s.draws := rfl
@[simp] theorem State.dropWrite_inputs : (s.dropWrite).inputs = s.inputs := rfl
@[simp] theorem State.dropWrite_rdata : (s.dropWrite).rdata = s.rdata := rfl

/-! ### complete -/

@[simp] theorem State.complete_regs (g : Staged) : (s.complete g).regs = s.regs.commit g := rfl
@[simp] theorem State.complete_seq (g : Staged) : (s.complete g).seq = .idle := rfl
@[simp] theorem State.complete_twc (g : Staged) : (s.complete g).twc = s.twc := rfl
@[simp] theorem State.complete_mem (g : Staged) : (s.complete g).mem = s.mem := rfl
@[simp] theorem State.complete_tWc (g : Staged) : (s.complete g).tWc = s.tWc := rfl
@[simp] theorem State.complete_answers (g : Staged) : (s.complete g).answers = s.answers := rfl
@[simp] theorem State.complete_draws (g : Staged) : (s.complete g).draws = s.draws := rfl
@[simp] theorem State.complete_inputs (g : Staged) : (s.complete g).inputs = s.inputs := rfl
@[simp] theorem State.complete_rdata (g : Staged) : (s.complete g).rdata = s.rdata := rfl

/-! ### readTransaction -/

@[simp] theorem State.readTransaction_regs (c : Command) (a n : Nat) (k : List Byte → Position) : (s.readTransaction c a n k).regs = s.regs := rfl
@[simp] theorem State.readTransaction_seq (c : Command) (a n : Nat) (k : List Byte → Position) : (s.readTransaction c a n k).seq = .busy { c with pos := if s.failsAt 0 then raise .ioError a else k (s.mem.readBytes a n) } := rfl
@[simp] theorem State.readTransaction_twc (c : Command) (a n : Nat) (k : List Byte → Position) : (s.readTransaction c a n k).twc = s.twc := rfl
@[simp] theorem State.readTransaction_mem (c : Command) (a n : Nat) (k : List Byte → Position) : (s.readTransaction c a n k).mem = s.mem := rfl
@[simp] theorem State.readTransaction_tWc (c : Command) (a n : Nat) (k : List Byte → Position) : (s.readTransaction c a n k).tWc = s.tWc := rfl
@[simp] theorem State.readTransaction_answers (c : Command) (a n : Nat) (k : List Byte → Position) : (s.readTransaction c a n k).answers = s.answers.tail := rfl
@[simp] theorem State.readTransaction_draws (c : Command) (a n : Nat) (k : List Byte → Position) : (s.readTransaction c a n k).draws = s.draws + 1 := rfl
@[simp] theorem State.readTransaction_inputs (c : Command) (a n : Nat) (k : List Byte → Position) : (s.readTransaction c a n k).inputs = s.inputs := rfl
@[simp] theorem State.readTransaction_rdata (c : Command) (a n : Nat) (k : List Byte → Position) : (s.readTransaction c a n k).rdata = s.rdata := rfl

/-! ### writeTransaction -/

@[simp] theorem State.writeTransaction_regs (c : Command) (a : Nat) (v : List Byte) (p : Position) : (s.writeTransaction c a v p).regs = s.regs := rfl
@[simp] theorem State.writeTransaction_seq (c : Command) (a : Nat) (v : List Byte) (p : Position) : (s.writeTransaction c a v p).seq = .busy { c with pos := if s.failsAt 0 then raise .ioError a else p } := rfl
@[simp] theorem State.writeTransaction_twc (c : Command) (a : Nat) (v : List Byte) (p : Position) : (s.writeTransaction c a v p).twc = s.tWc := rfl
@[simp] theorem State.writeTransaction_mem (c : Command) (a : Nat) (v : List Byte) (p : Position) : (s.writeTransaction c a v p).mem = s.mem.writeBytes a (if s.failsAt 0 then tornBytes s.draws v.length else v) := rfl
@[simp] theorem State.writeTransaction_tWc (c : Command) (a : Nat) (v : List Byte) (p : Position) : (s.writeTransaction c a v p).tWc = s.tWc := rfl
@[simp] theorem State.writeTransaction_answers (c : Command) (a : Nat) (v : List Byte) (p : Position) : (s.writeTransaction c a v p).answers = s.answers.tail := rfl
@[simp] theorem State.writeTransaction_draws (c : Command) (a : Nat) (v : List Byte) (p : Position) : (s.writeTransaction c a v p).draws = s.draws + 1 := rfl
@[simp] theorem State.writeTransaction_inputs (c : Command) (a : Nat) (v : List Byte) (p : Position) : (s.writeTransaction c a v p).inputs = s.inputs := rfl
@[simp] theorem State.writeTransaction_rdata (c : Command) (a : Nat) (v : List Byte) (p : Position) : (s.writeTransaction c a v p).rdata = s.rdata := rfl

/-! ### afterReset -/

@[simp] theorem State.afterReset_regs : (s.afterReset).regs = .reset := rfl
@[simp] theorem State.afterReset_seq : (s.afterReset).seq = .idle := rfl
@[simp] theorem State.afterReset_twc : (s.afterReset).twc = s.tWc := rfl
@[simp] theorem State.afterReset_mem : (s.afterReset).mem = s.mem := rfl
@[simp] theorem State.afterReset_tWc : (s.afterReset).tWc = s.tWc := rfl
@[simp] theorem State.afterReset_answers : (s.afterReset).answers = s.answers := rfl
@[simp] theorem State.afterReset_draws : (s.afterReset).draws = s.draws := rfl
@[simp] theorem State.afterReset_inputs : (s.afterReset).inputs = s.inputs := rfl
@[simp] theorem State.afterReset_rdata : (s.afterReset).rdata = s.rdata := rfl

/-! ### hostRead -/

@[simp] theorem State.hostRead_regs (off : Byte) : (s.hostRead off).regs = s.regs := rfl
@[simp] theorem State.hostRead_seq (off : Byte) : (s.hostRead off).seq = s.seq := rfl
@[simp] theorem State.hostRead_twc (off : Byte) : (s.hostRead off).twc = s.twc := rfl
@[simp] theorem State.hostRead_mem (off : Byte) : (s.hostRead off).mem = s.mem := rfl
@[simp] theorem State.hostRead_tWc (off : Byte) : (s.hostRead off).tWc = s.tWc := rfl
@[simp] theorem State.hostRead_answers (off : Byte) : (s.hostRead off).answers = s.answers := rfl
@[simp] theorem State.hostRead_draws (off : Byte) : (s.hostRead off).draws = s.draws := rfl
@[simp] theorem State.hostRead_inputs (off : Byte) : (s.hostRead off).inputs = s.inputs := rfl
@[simp] theorem State.hostRead_rdata (off : Byte) : (s.hostRead off).rdata = some (s.valueOf (registerAt off)) := rfl

/-! ### after -/

@[simp] theorem State.after_regs (n : Nat) (r : Regs) (m : Memory) : (s.after n r m).regs = r := rfl
@[simp] theorem State.after_seq (n : Nat) (r : Regs) (m : Memory) : (s.after n r m).seq = .idle := rfl
@[simp] theorem State.after_twc (n : Nat) (r : Regs) (m : Memory) : (s.after n r m).twc = 0 := rfl
@[simp] theorem State.after_mem (n : Nat) (r : Regs) (m : Memory) : (s.after n r m).mem = m := rfl
@[simp] theorem State.after_tWc (n : Nat) (r : Regs) (m : Memory) : (s.after n r m).tWc = s.tWc := rfl
@[simp] theorem State.after_answers (n : Nat) (r : Regs) (m : Memory) : (s.after n r m).answers = s.answers.drop n := rfl
@[simp] theorem State.after_draws (n : Nat) (r : Regs) (m : Memory) : (s.after n r m).draws = s.draws + n := rfl
@[simp] theorem State.after_inputs (n : Nat) (r : Regs) (m : Memory) : (s.after n r m).inputs = s.inputs := rfl
@[simp] theorem State.after_rdata (n : Nat) (r : Regs) (m : Memory) : (s.after n r m).rdata = s.rdata := rfl

/-! ### The registers a completion writes -/

@[simp] theorem Regs.commit_cmd (r : Regs) (g : Staged) : (r.commit g).cmd = r.cmd := rfl
@[simp] theorem Regs.commit_done (r : Regs) (g : Staged) : (r.commit g).done = true := rfl
@[simp] theorem Regs.commit_valid (r : Regs) (g : Staged) : (r.commit g).valid = g.valid := rfl
@[simp] theorem Regs.commit_ended (r : Regs) (g : Staged) : (r.commit g).ended = g.ended.getD r.ended := rfl
@[simp] theorem Regs.commit_full (r : Regs) (g : Staged) : (r.commit g).full = g.full := rfl
@[simp] theorem Regs.commit_errf (r : Regs) (g : Staged) : (r.commit g).errf = decide (g.err ≠ .none) := rfl
@[simp] theorem Regs.commit_overrun (r : Regs) (g : Staged) : (r.commit g).overrun = r.overrun := rfl
@[simp] theorem Regs.commit_err (r : Regs) (g : Staged) : (r.commit g).err = g.err := rfl
@[simp] theorem Regs.commit_len (r : Regs) (g : Staged) : (r.commit g).len = g.len.getD r.len := rfl
@[simp] theorem Regs.commit_addrHi (r : Regs) (g : Staged) : (r.commit g).addrHi = r.addrHi := rfl
@[simp] theorem Regs.commit_addrLo (r : Regs) (g : Staged) : (r.commit g).addrLo = r.addrLo := rfl
@[simp] theorem Regs.commit_slot (r : Regs) (g : Staged) : (r.commit g).slot = r.slot := rfl
@[simp] theorem Regs.commit_cursor (r : Regs) (g : Staged) : (r.commit g).cursor = g.cursor.getD r.cursor := rfl
@[simp] theorem Regs.commit_crc (r : Regs) (g : Staged) : (r.commit g).crc = g.crc.getD r.crc := rfl
@[simp] theorem Regs.commit_rslt (r : Regs) (g : Staged) : (r.commit g).rslt = g.rslt.getD r.rslt := rfl
@[simp] theorem Regs.commit_faddr (r : Regs) (g : Staged) : (r.commit g).faddr = g.faddr.getD r.faddr := rfl
@[simp] theorem Regs.commit_buf (r : Regs) (g : Staged) : (r.commit g).buf = g.buf.getD r.buf := rfl

/-! ### A write to STATUS -/

@[simp] theorem Regs.writeStatus_cmd (r : Regs) (v : Byte) : (r.writeStatus v).cmd = r.cmd := rfl
@[simp] theorem Regs.writeStatus_done (r : Regs) (v : Byte) : (r.writeStatus v).done = r.done := rfl
@[simp] theorem Regs.writeStatus_valid (r : Regs) (v : Byte) : (r.writeStatus v).valid = r.valid := rfl
@[simp] theorem Regs.writeStatus_ended (r : Regs) (v : Byte) : (r.writeStatus v).ended = r.ended := rfl
@[simp] theorem Regs.writeStatus_full (r : Regs) (v : Byte) : (r.writeStatus v).full = r.full := rfl
@[simp] theorem Regs.writeStatus_errf (r : Regs) (v : Byte) : (r.writeStatus v).errf = r.errf := rfl
@[simp] theorem Regs.writeStatus_overrun (r : Regs) (v : Byte) : (r.writeStatus v).overrun = (r.overrun && !v.getLsbD 6) := rfl
@[simp] theorem Regs.writeStatus_err (r : Regs) (v : Byte) : (r.writeStatus v).err = r.err := rfl
@[simp] theorem Regs.writeStatus_len (r : Regs) (v : Byte) : (r.writeStatus v).len = r.len := rfl
@[simp] theorem Regs.writeStatus_addrHi (r : Regs) (v : Byte) : (r.writeStatus v).addrHi = r.addrHi := rfl
@[simp] theorem Regs.writeStatus_addrLo (r : Regs) (v : Byte) : (r.writeStatus v).addrLo = r.addrLo := rfl
@[simp] theorem Regs.writeStatus_slot (r : Regs) (v : Byte) : (r.writeStatus v).slot = r.slot := rfl
@[simp] theorem Regs.writeStatus_cursor (r : Regs) (v : Byte) : (r.writeStatus v).cursor = r.cursor := rfl
@[simp] theorem Regs.writeStatus_crc (r : Regs) (v : Byte) : (r.writeStatus v).crc = r.crc := rfl
@[simp] theorem Regs.writeStatus_rslt (r : Regs) (v : Byte) : (r.writeStatus v).rslt = r.rslt := rfl
@[simp] theorem Regs.writeStatus_faddr (r : Regs) (v : Byte) : (r.writeStatus v).faddr = r.faddr := rfl
@[simp] theorem Regs.writeStatus_buf (r : Regs) (v : Byte) : (r.writeStatus v).buf = r.buf := rfl

/-! ### The sampled operands -/

@[simp] theorem Regs.sample_len (r : Regs) : r.sample.len = r.len := rfl
@[simp] theorem Regs.sample_addr (r : Regs) : r.sample.addr = r.addr := rfl
@[simp] theorem Regs.sample_slot (r : Regs) : r.sample.slot = r.slot := rfl
@[simp] theorem Regs.sample_buf (r : Regs) : r.sample.buf = r.buf := rfl
@[simp] theorem Regs.sample_cursor (r : Regs) : r.sample.cursor = r.cursor := rfl
@[simp] theorem Regs.sample_ended (r : Regs) : r.sample.ended = r.ended := rfl

/-! ### Whether a command runs -/

@[simp] theorem State.isBusy_idle (h : s.seq = .idle) : s.isBusy = false := by simp [State.isBusy, h]

@[simp] theorem State.isBusy_busy (c : Command) (h : s.seq = .busy c) : s.isBusy = true := by simp [State.isBusy, h]

end Sys2Proof.Machine
end

