-- ==== Sys2Proof/Laws/Sequencer.lean ====
section
/-! SUPPORT. What the shared steps of a command do, said once: one lemma per kind of action for a command that is left alone,
and one per loop (the scan and the full erase). -/

namespace Sys2Proof.Machine

/-- `s` in the middle of command `c`, at position `p`, `n` transactions after the command began, with memory `m` and timer
`w`. -/
def State.midway (s : State) (n : Nat) (c : Command) (p : Position) (m : Memory) (w : Nat) : State :=
  { s with seq := .busy { c with pos := p }, twc := w, mem := m, answers := s.answers.drop n, draws := s.draws + n }

variable (s : State) (n : Nat) (c : Command) (p : Position) (m : Memory) (w : Nat)

@[simp] theorem State.midway_regs : (s.midway n c p m w).regs = s.regs := rfl
@[simp] theorem State.midway_seq : (s.midway n c p m w).seq = .busy { c with pos := p } := rfl
@[simp] theorem State.midway_mem : (s.midway n c p m w).mem = m := rfl
@[simp] theorem State.midway_twc : (s.midway n c p m w).twc = w := rfl
@[simp] theorem State.midway_tWc : (s.midway n c p m w).tWc = s.tWc := rfl
@[simp] theorem State.midway_draws : (s.midway n c p m w).draws = s.draws + n := rfl
@[simp] theorem State.midway_inputs : (s.midway n c p m w).inputs = s.inputs := rfl
@[simp] theorem State.midway_rdata : (s.midway n c p m w).rdata = s.rdata := rfl

/-! ### Draws -/

theorem State.failsAt_congr {s t : State} {d : Nat} (ha : t.answers = s.answers.drop d) (hd : t.draws = s.draws + d)
    (k : Nat) : t.failsAt k = s.failsAt (d + k) := by
  unfold State.failsAt
  rw [ha, hd, List.getElem?_drop, Nat.add_assoc]

@[simp] theorem State.midway_failsAt (k : Nat) : (s.midway n c p m w).failsAt k = s.failsAt (n + k) :=
  State.failsAt_congr rfl rfl k

@[simp] theorem State.after_failsAt (r : Regs) (k : Nat) : (s.after n r m).failsAt k = s.failsAt (n + k) :=
  State.failsAt_congr rfl rfl k

@[simp] theorem State.drawn_failsAt (k : Nat) : s.drawn.failsAt k = s.failsAt (1 + k) :=
  State.failsAt_congr (by simp) rfl k

/-! ### Acceptance and the end -/

/-- `s` with the registers that the acceptance of `i` leaves (10_state.md R41). -/
def State.begun (s : State) (i : Instr) : State := { s with regs := { s.regs with cmd := i.opcode, done := false } }

/-- The command that the acceptance of `i` starts. -/
def Command.fresh (i : Instr) (r : Regs) : Command := { instr := i, ops := r.sample, pos := .check }

@[simp] theorem Command.fresh_ops (i : Instr) (r : Regs) : (Command.fresh i r).ops = r.sample := rfl

@[simp] theorem State.begun_failsAt (i : Instr) (k : Nat) : (s.begun i).failsAt k = s.failsAt k := rfl

@[simp] theorem State.begun_after (i : Instr) (r : Regs) : (s.begun i).after n r m = s.after n r m := rfl

@[simp] theorem State.begun_draws (i : Instr) : (s.begun i).draws = s.draws := rfl

@[simp] theorem State.begun_tWc (i : Instr) : (s.begun i).tWc = s.tWc := rfl

@[simp] theorem State.begun_regs (i : Instr) :
    (s.begun i).regs = { s.regs with cmd := i.opcode, done := false } := rfl

/-- A command that is accepted is at the beginning of its pseudocode. -/
theorem State.accept_eq_midway (i : Instr) :
    s.accept i = (s.begun i).midway 0 (.fresh i s.regs) .check s.mem s.twc := rfl

/-- A command given while none runs: acceptance, then its plan. -/
theorem runCommand_idle {s : State} (i : Instr) (plan : Operands → Position → Action) (h : s.seq = .idle) :
    runCommand i plan s =
      .next (((s.begun i).midway 0 (.fresh i s.regs) .check s.mem s.twc).runPlan plan Config.maxSteps) := by
  simp [runCommand, h, State.accept_eq_midway]

/-- A command given while another runs: the write is dropped (10_state.md R36). -/
theorem runCommand_busy {s : State} {c : Command} (i : Instr) (plan : Operands → Position → Action)
    (h : s.seq = .busy c) : runCommand i plan s = .next s.dropWrite := by
  simp [runCommand, s.isBusy_busy c h]

theorem State.runPlan_idle {s : State} (plan : Operands → Position → Action) (k : Nat) (h : s.seq = .idle) :
    s.runPlan plan k = s := by
  cases k with
  | zero => rfl
  | succ k => simp [State.runPlan, h]

/-! ### One action -/

variable {s n c p m w} {plan : Operands → Position → Action} (k : Nat)

theorem State.runPlan_goto {q : Position} (h : plan c.ops p = .goto q) :
    (s.midway n c p m w).runPlan plan (k + 1) = (s.midway n c q m 0).runPlan plan k := by
  simp only [State.runPlan, State.midway_seq, h]
  rfl

theorem State.runPlan_read {a l : Nat} {f : List Byte → Position} (h : plan c.ops p = .read a l f) :
    (s.midway n c p m w).runPlan plan (k + 1) =
      (s.midway (n + 1) c (if s.failsAt n then raise .ioError a else f (m.readBytes a l)) m 0).runPlan plan k := by
  have hf : (s.midway n c p m w).settle.failsAt 0 = s.failsAt n := s.midway_failsAt n c p m w 0
  simp only [State.runPlan, State.midway_seq, h, State.perform, State.readTransaction, hf]
  congr 1
  simp [State.midway, State.settle, State.drawn, State.goto, Nat.add_assoc]

theorem State.runPlan_write {a : Nat} {v : List Byte} {q : Position} (h : plan c.ops p = .write a v q) :
    (s.midway n c p m w).runPlan plan (k + 1) =
      (s.midway (n + 1) c (if s.failsAt n then raise .ioError a else q)
        (m.writeBytes a (if s.failsAt n then tornBytes (s.draws + n) v.length else v)) s.tWc).runPlan plan k := by
  have hf : (s.midway n c p m w).settle.failsAt 0 = s.failsAt n := s.midway_failsAt n c p m w 0
  simp only [State.runPlan, State.midway_seq, h, State.perform, State.writeTransaction, hf]
  congr 1
  simp [State.midway, State.settle, State.drawn, State.goto, Nat.add_assoc]

theorem State.runPlan_complete {g : Staged} (h : plan c.ops p = .complete g) :
    (s.midway n c p m w).runPlan plan (k + 1) = s.after n (s.regs.commit g) m := by
  have : (s.midway n c p m w).runPlan plan (k + 1) = (s.after n (s.regs.commit g) m).runPlan plan k := by
    simp only [State.runPlan, State.midway_seq, h, State.perform]
    rfl
  rw [this, State.runPlan_idle _ _ (by simp)]

/-! ### The slots -/

theorem slotBase_eq (i : Nat) : slotBase i = 64 * i := rfl

theorem nextSlot_some {i : SlotIndex} (h : i.val + 1 < 32) : nextSlot i = some ⟨i.val + 1, h⟩ := by
  simp [nextSlot, h]

theorem nextSlot_none {i : SlotIndex} (h : i.val = 31) : nextSlot i = .none := by simp [nextSlot, h]

/-! ### The scan (41_log.md R144) -/

variable {found : SlotIndex → Position} {full : Position}

/-- The scan passes over slots that are not free. -/
theorem State.runPlan_scan_skip (hp : ∀ i : SlotIndex, plan c.ops (.scan i) = scanSlot i found full) (d : Nat) :
    ∀ (i : SlotIndex) (n w : Nat) (hd : i.val + d < 32), (∀ j < d, ¬ m.FreeSlot (i.val + j)) →
      (∀ j < d, s.failsAt (n + j) = false) →
      ∃ w', (s.midway n c (.scan i) m w).runPlan plan (k + d) =
        (s.midway (n + d) c (.scan ⟨i.val + d, hd⟩) m w').runPlan plan k := by
  induction d with
  | zero => intro i n w _ _ _; exact ⟨w, rfl⟩
  | succ d ih =>
    intro i n w hd hfree hok
    have hi : i.val + 1 < 32 := by omega
    have h0 : m.read (slotBase i.val) ≠ 0x00 := by simpa using hfree 0 (by omega)
    have hstep := State.runPlan_read (s := s) (n := n) (c := c) (p := .scan i) (m := m) (w := w) (k + d)
      (a := slotBase i) (l := 1) (hp i)
    have hf0 : s.failsAt n = false := by simpa using hok 0 (by omega)
    rw [show k + (d + 1) = k + d + 1 by omega, hstep]
    simp only [hf0, Memory.readBytes_one, List.cons.injEq, and_true, h0, nextSlot_some hi, if_false,
      Bool.false_eq_true]
    obtain ⟨w', h⟩ := ih ⟨i.val + 1, hi⟩ (n + 1) 0 (by simp only; omega)
      (fun j hj => by have := hfree (j + 1) (by omega); rwa [show i.val + (j + 1) = i.val + 1 + j by omega] at this)
      (fun j hj => by have := hok (j + 1) (by omega); rwa [show n + (j + 1) = n + 1 + j by omega] at this)
    refine ⟨w', h.trans ?_⟩
    simp only [Nat.add_assoc, Nat.add_comm 1 d]

/-- The scan finds a free slot. -/
theorem State.runPlan_scan_found (hp : ∀ i : SlotIndex, plan c.ops (.scan i) = scanSlot i found full) {i : SlotIndex}
    (hfree : m.FreeSlot i.val) (hok : s.failsAt n = false) :
    (s.midway n c (.scan i) m w).runPlan plan (k + 1) = (s.midway (n + 1) c (found i) m 0).runPlan plan k := by
  rw [State.runPlan_read k (hp i), hok, Memory.readBytes_one, hfree]
  simp

/-- The scan finds slot 31 not free: the log is full. -/
theorem State.runPlan_scan_full (hp : ∀ i : SlotIndex, plan c.ops (.scan i) = scanSlot i found full)
    (hfree : ¬ m.FreeSlot 31) (hok : s.failsAt n = false) :
    (s.midway n c (.scan 31) m w).runPlan plan (k + 1) = (s.midway (n + 1) c full m 0).runPlan plan k := by
  rw [State.runPlan_read k (hp 31), hok, Memory.readBytes_one]
  have h31 : [m.read (slotBase (31 : SlotIndex).val)] ≠ [0x00] := fun h => hfree (List.cons.inj h).1
  rw [if_neg h31, nextSlot_none rfl]
  rfl

/-- A scan read fails. -/
theorem State.runPlan_scan_fails (hp : ∀ i : SlotIndex, plan c.ops (.scan i) = scanSlot i found full) {i : SlotIndex}
    (hfail : s.failsAt n = true) :
    (s.midway n c (.scan i) m w).runPlan plan (k + 1) =
      (s.midway (n + 1) c (raise .ioError (slotBase i)) m 0).runPlan plan k := by
  rw [State.runPlan_read k (hp i), hfail]
  simp

/-- The whole scan, when slot `t` is the first free slot. -/
theorem State.runPlan_scan_to_free (hp : ∀ i : SlotIndex, plan c.ops (.scan i) = scanSlot i found full) (t : SlotIndex)
    (htaken : ∀ i < t.val, ¬ m.FreeSlot i) (hfree : m.FreeSlot t.val) (hok : ∀ i < t.val + 1, s.failsAt i = false) :
    (s.midway 0 c (.scan 0) m w).runPlan plan (k + (t.val + 1)) =
      (s.midway (t.val + 1) c (found t) m 0).runPlan plan k := by
  obtain ⟨w', h⟩ := State.runPlan_scan_skip (s := s) (m := m) (k + 1) hp t.val 0 0 w (by simp)
    (by simpa using htaken) (fun j hj => by rw [Nat.zero_add]; exact hok j (by omega))
  simp only [Fin.val_zero, Nat.zero_add, Fin.eta] at h
  rw [show k + (t.val + 1) = k + 1 + t.val by omega, h,
    State.runPlan_scan_found k hp hfree (hok t.val (by omega))]

/-- The whole scan, when no slot is free. -/
theorem State.runPlan_scan_all_taken (hp : ∀ i : SlotIndex, plan c.ops (.scan i) = scanSlot i found full)
    (htaken : ∀ i < 32, ¬ m.FreeSlot i) (hok : ∀ i < 32, s.failsAt i = false) :
    (s.midway 0 c (.scan 0) m w).runPlan plan (k + 32) = (s.midway 32 c full m 0).runPlan plan k := by
  obtain ⟨w', h⟩ := State.runPlan_scan_skip (s := s) (m := m) (k + 1) hp 31 0 0 w (by simp)
    (fun j hj => by simpa using htaken j (by omega)) (fun j hj => by rw [Nat.zero_add]; exact hok j (by omega))
  simp only [Fin.val_zero, Nat.zero_add] at h
  rw [show k + 32 = k + 1 + 31 by omega, h]
  exact State.runPlan_scan_full k hp (htaken 31 (by omega)) (hok 31 (by omega))

/-- The scan, when the read of slot `i` fails. -/
theorem State.runPlan_scan_to_failure (hp : ∀ i : SlotIndex, plan c.ops (.scan i) = scanSlot i found full)
    (i : SlotIndex) (htaken : ∀ j < i.val, ¬ m.FreeSlot j) (hf : s.FirstFailure i.val) :
    (s.midway 0 c (.scan 0) m w).runPlan plan (k + (i.val + 1)) =
      (s.midway (i.val + 1) c (raise .ioError (slotBase i)) m 0).runPlan plan k := by
  obtain ⟨w', h⟩ := State.runPlan_scan_skip (s := s) (m := m) (k + 1) hp i.val 0 0 w (by simp)
    (by simpa using htaken) (fun j hj => by rw [Nat.zero_add]; exact hf.1 j hj)
  simp only [Fin.val_zero, Nat.zero_add, Fin.eta] at h
  rw [show k + (i.val + 1) = k + 1 + i.val by omega, h, State.runPlan_scan_fails k hp hf.2]

/-! ### The full erase (41_log.md R145) -/

variable {andThen : Position}

/-- The erase goes on from slot to slot. -/
theorem State.runPlan_erase_skip (hp : ∀ i : SlotIndex, plan c.ops (.erase i) = eraseSlot i andThen) (d : Nat) :
    ∀ (m : Memory) (i : SlotIndex) (n w : Nat) (hd : i.val + d < 32), (∀ j < d, s.failsAt (n + j) = false) →
      ∃ w', (s.midway n c (.erase i) (m.eraseBelow i.val) w).runPlan plan (k + d) =
        (s.midway (n + d) c (.erase ⟨i.val + d, hd⟩) (m.eraseBelow (i.val + d)) w').runPlan plan k := by
  induction d with
  | zero => intro m i n w _ _; exact ⟨w, rfl⟩
  | succ d ih =>
    intro m i n w hd hok
    have hi : i.val + 1 < 32 := by omega
    have hf0 : s.failsAt n = false := by simpa using hok 0 (by omega)
    have hstep := State.runPlan_write (s := s) (n := n) (c := c) (p := .erase i) (m := m.eraseBelow i.val) (w := w)
      (k + d) (hp i)
    rw [show k + (d + 1) = k + d + 1 by omega, hstep]
    simp only [hf0, nextSlot_some hi, if_false, Bool.false_eq_true]
    obtain ⟨w', h⟩ := ih m ⟨i.val + 1, hi⟩ (n + 1) s.tWc (by simp only; omega)
      (fun j hj => by have := hok (j + 1) (by omega); rwa [show n + (j + 1) = n + 1 + j by omega] at this)
    refine ⟨w', Eq.trans ?_ (h.trans ?_)⟩
    · rfl
    · simp only [Nat.add_assoc, Nat.add_comm 1 d]

/-- The erase of slot 31 is the last. -/
theorem State.runPlan_erase_last (hp : ∀ i : SlotIndex, plan c.ops (.erase i) = eraseSlot i andThen)
    (hok : s.failsAt n = false) :
    (s.midway n c (.erase 31) (m.eraseBelow 31) w).runPlan plan (k + 1) =
      (s.midway (n + 1) c andThen (m.eraseBelow 32) s.tWc).runPlan plan k := by
  rw [State.runPlan_write k (hp 31), hok]
  simp only [nextSlot_none (i := 31) rfl, if_false, Bool.false_eq_true]
  rfl

/-- An erase write fails: its byte is unspecified. -/
theorem State.runPlan_erase_fails (hp : ∀ i : SlotIndex, plan c.ops (.erase i) = eraseSlot i andThen) {i : SlotIndex}
    (hfail : s.failsAt n = true) :
    (s.midway n c (.erase i) m w).runPlan plan (k + 1) =
      (s.midway (n + 1) c (raise .ioError (slotBase i)) (m.writeBytes (slotBase i) (tornBytes (s.draws + n) 1))
        s.tWc).runPlan plan k := by
  rw [State.runPlan_write k (hp i), hfail]
  simp

/-- The whole erase. -/
theorem State.runPlan_erase_all (hp : ∀ i : SlotIndex, plan c.ops (.erase i) = eraseSlot i andThen)
    (hok : ∀ i < 32, s.failsAt (n + i) = false) :
    (s.midway n c (.erase 0) m w).runPlan plan (k + 32) =
      (s.midway (n + 32) c andThen (m.eraseBelow 32) s.tWc).runPlan plan k := by
  obtain ⟨w', h⟩ := State.runPlan_erase_skip (s := s) (k + 1) hp 31 m 0 n w (by simp) (fun j hj => hok j (by omega))
  rw [show k + 32 = k + 1 + 31 by omega]
  exact h.trans (State.runPlan_erase_last k hp (hok 31 (by omega)))

/-- The erase, when the write to slot `i` fails. -/
theorem State.runPlan_erase_to_failure (hp : ∀ i : SlotIndex, plan c.ops (.erase i) = eraseSlot i andThen)
    (i : SlotIndex) (hok : ∀ j < i.val, s.failsAt (n + j) = false) (hfail : s.failsAt (n + i.val) = true) :
    (s.midway n c (.erase 0) m w).runPlan plan (k + (i.val + 1)) =
      (s.midway (n + i.val + 1) c (raise .ioError (slotBase i))
        ((m.eraseBelow i.val).writeBytes (slotBase i) (tornBytes (s.draws + (n + i.val)) 1)) s.tWc).runPlan plan k := by
  obtain ⟨w', h⟩ := State.runPlan_erase_skip (s := s) (k + 1) hp i.val m 0 n w (by simp) hok
  simp only [Fin.val_zero, Nat.zero_add, Fin.eta, Memory.eraseBelow] at h
  rw [show k + (i.val + 1) = k + 1 + i.val by omega, h, State.runPlan_erase_fails k hp hfail]

/-- What the memory holds with the first bytes of the slots below `j` erased. -/
theorem Memory.read_eraseBelow (m : Memory) {j : Nat} (hj : j ≤ 32) (a : Nat) :
    (m.eraseBelow j).read a = if a < 64 * j ∧ a % 64 = 0 then 0x00 else m.read a := by
  induction j with
  | zero => simp [Memory.eraseBelow]
  | succ j ih =>
    have hw := Memory.read_writeBytes (m.eraseBelow j) (a := 64 * j) [0x00] a
      (by simp only [List.length_singleton, Config.memSize]; omega)
    simp only [Memory.eraseBelow, slotBase_eq]
    rw [hw, ih (by omega)]
    simp only [List.length_singleton]
    by_cases ha : a = 64 * j
    · have h1 : 64 * j ≤ a ∧ a < 64 * j + 1 := by omega
      have h2 : a < 64 * (j + 1) ∧ a % 64 = 0 := by omega
      rw [if_pos h1, if_pos h2]
      simp [ha]
    · have h1 : ¬ (64 * j ≤ a ∧ a < 64 * j + 1) := by omega
      have h2 : (a < 64 * j ∧ a % 64 = 0) ↔ (a < 64 * (j + 1) ∧ a % 64 = 0) := by omega
      rw [if_neg h1]
      simp only [h2]

theorem Memory.eraseBelow_wf {m : Memory} (h : m.wf = true) (j : Nat) : (m.eraseBelow j).wf = true := by
  induction j with
  | zero => exact h
  | succ j ih => exact Memory.writeBytes_wf ih _ _

end Sys2Proof.Machine
end

