-- ==== Sys2Proof/Laws/Commands.lean ====
section
/-! SUPPORT. What holds of every command's plan, said once over all of them: which results it can stage, that it comes nearer
to its completion with every step, and induction over the steps of a command that is left alone. -/

namespace Sys2Proof.Machine

/-! ### Every command is its plan -/

theorem exec_eq_runCommand (i : Instr) (s : State) : exec i s = runCommand i (planOf i) s := by cases i <;> rfl

/-- Staged results are completed with, whatever the command. -/
theorem planOf_complete (i : Instr) (o : Operands) (g : Staged) : planOf i o (.complete g) = .complete g := by
  cases i <;> rfl

/-- What every step of a command keeps, the whole command keeps. -/
theorem State.runPlan_induct {P : State → Prop} {plan : Operands → Position → Action}
    (hP : ∀ s c, s.seq = .busy c → P s → P (s.settle.perform c (plan c.ops c.pos))) (k : Nat) :
    ∀ s, P s → P (s.runPlan plan k) := by
  induction k with
  | zero => intro s h; exact h
  | succ k ih =>
    intro s h
    simp only [State.runPlan]
    split
    · exact h
    · rename_i c hc; exact ih _ (hP s c hc h)

/-! ### What a command can stage (10_state.md R35, 60_exceptions.md R222, R225) -/

/-- The errors a command can end with. -/
def MayEndWith : Instr → ErrorCode → Prop
  | .crcCompute, e => e = .none ∨ e = .badParam
  | .logAppend, e => e = .none ∨ e = .invalidEntry ∨ e = .ioError
  | .logErase, e | .logReadNext, e | .logFindFree, e => e = .none ∨ e = .ioError
  | .logReadReset, e => e = .none
  | .logCheckSlot, e | .memRead, e | .memWrite, e => e = .none ∨ e = .ioError ∨ e = .badParam
  | .illegal _, e => e = .illegalCmd

/-- The results a command can stage. -/
structure MayStage (i : Instr) (g : Staged) : Prop where
  err : MayEndWith i g.err
  crc : g.crc ≠ .none → (i = .crcCompute ∨ i = .logAppend) ∧ g.err = .none
  rslt : g.rslt ≠ .none → (i = .logAppend ∨ i = .logFindFree) ∧ g.err = .none
  faddr : g.faddr ≠ .none → g.err = .ioError
  cursor : g.cursor ≠ .none → (i = .logReadReset ∨ i = .logReadNext) ∧ g.err = .none
  ended : g.ended ≠ .none → (i = .logReadReset ∨ i = .logReadNext) ∧ g.err = .none
  len : g.len ≠ .none → (i = .logReadNext ∨ i = .logCheckSlot) ∧ g.err = .none
  buf : g.buf ≠ .none → (i = .logReadNext ∨ i = .logCheckSlot ∨ i = .memRead) ∧ g.err = .none
  valid : g.valid = true → i = .logReadNext ∨ i = .logCheckSlot
  full : g.full = true → i = .logAppend ∨ i = .logFindFree
  consistent : g.Consistent

/-- Where a command's position holds staged results, they are results it can stage. -/
def Position.Fits (i : Instr) : Position → Prop
  | .complete g => MayStage i g
  | .check | .scan _ | .erase _ | .entry _ _ | .slot _ | .raw => True

/-- Whatever an action leads to, the transaction's failure too, fits. -/
def Action.Fits (i : Instr) : Action → Prop
  | .goto q => q.Fits i
  | .read a _ k => (∀ bs, (k bs).Fits i) ∧ (raise .ioError (some a)).Fits i
  | .write a _ q => q.Fits i ∧ (raise .ioError (some a)).Fits i
  | .complete g => MayStage i g

theorem raise_fits {i : Instr} {e : ErrorCode} (h : MayEndWith i e) (hio : e ≠ .ioError) : (raise e).Fits i := by
  constructor <;> simp [Staged.Consistent, h, hio]

theorem raise_ioError_fits {i : Instr} (a : Nat) (h : MayEndWith i .ioError) : (raise .ioError (some a)).Fits i := by
  constructor <;> simp [Staged.Consistent, h]

theorem readNextResult_fits (o : Operands) (i : SlotIndex) (raw : List Byte) :
    MayStage .logReadNext (readNextResult o i raw) := by
  unfold readNextResult slotItem
  split <;> constructor <;> simp_all [Staged.Consistent, MayEndWith]

theorem slotItem_fits (o : Operands) (raw : List Byte) : MayStage .logCheckSlot (slotItem o raw) := by
  unfold slotItem
  constructor <;> simp_all [Staged.Consistent, MayEndWith]

/-- Every plan leads from a position that fits only to positions that fit. -/
theorem planOf_fits (i : Instr) (o : Operands) (p : Position) (hp : p.Fits i) : (planOf i o p).Fits i := by
  cases i <;> cases p <;> simp only [planOf, planCrcCompute, planLogAppend, planLogErase, planLogReadReset,
    planLogReadNext, planLogCheckSlot, planLogFindFree, planMemRead, planMemWrite, planIllegal]
  all_goals first
    | exact hp
    | exact trivial
    | exact raise_fits (by simp [MayEndWith]) (by simp)
    | exact ⟨fun _ => readNextResult_fits _ _ _, raise_ioError_fits _ (by simp [MayEndWith])⟩
    | exact ⟨fun _ => slotItem_fits _ _, raise_ioError_fits _ (by simp [MayEndWith])⟩
    | (refine ⟨fun bs => ?_, raise_ioError_fits _ (by simp [MayEndWith])⟩
       dsimp only
       split
       · first | exact trivial | (constructor <;> simp [Staged.Consistent, MayEndWith])
       · split
         · exact trivial
         · first | exact trivial | (constructor <;> simp [Staged.Consistent, MayEndWith]))
    | (refine ⟨?_, raise_ioError_fits _ (by simp [MayEndWith])⟩
       split
       · exact trivial
       · first | exact trivial | (constructor <;> simp [Staged.Consistent, MayEndWith]))
    | (constructor <;> simp [Staged.Consistent, MayEndWith])
    | (split
       all_goals first
         | exact trivial
         | exact raise_fits (by simp [MayEndWith]) (by simp)
         | (constructor <;> simp [Staged.Consistent, MayEndWith])
         | (refine ⟨?_, raise_ioError_fits _ (by simp [MayEndWith])⟩
            constructor <;> simp [Staged.Consistent, MayEndWith])
         | (refine ⟨fun bs => ?_, raise_ioError_fits _ (by simp [MayEndWith])⟩
            constructor <;> simp [Staged.Consistent, MayEndWith]))

/-! ### How far a command is from its completion (70_reset_and_hazards.md R275) -/

/-- Sequencer steps that are enough from a position. -/
def Position.stepsLeft : Instr → Position → Nat
  | _, .complete _ => 1
  | .logAppend, .scan i => 66 - i.val
  | .logAppend, .erase i => 34 - i.val
  | .logAppend, .entry _ _ => 2
  | .logErase, .erase i | .logFindFree, .scan i => 33 - i.val
  | .logReadNext, .slot _ | .logCheckSlot, .slot _ | .memRead, .raw | .memWrite, .raw => 2
  | .logAppend, _ => 67
  | .logErase, _ | .logFindFree, _ => 34
  | _, _ => 3

/-- Transactions that are enough from a position. -/
def Position.transactionsLeft : Instr → Position → Nat
  | _, .complete _ => 0
  | .logAppend, .scan i => 65 - i.val
  | .logAppend, .erase i => 33 - i.val
  | .logAppend, .entry _ _ => 1
  | .logErase, .erase i | .logFindFree, .scan i => 32 - i.val
  | .logReadNext, .slot _ | .logCheckSlot, .slot _ | .memRead, .raw | .memWrite, .raw => 1
  | .logAppend, _ => 65
  | .logErase, _ | .logFindFree, _ => 32
  | _, _ => 1

/-- An action leads nearer to the completion, the transaction's failure too. -/
def Action.Nearer (i : Instr) (p : Position) : Action → Prop
  | .goto q => q.stepsLeft i < p.stepsLeft i ∧ q.transactionsLeft i ≤ p.transactionsLeft i
  | .read _ _ k =>
    (∀ bs, (k bs).stepsLeft i < p.stepsLeft i ∧ (k bs).transactionsLeft i < p.transactionsLeft i) ∧
      1 < p.stepsLeft i ∧ 0 < p.transactionsLeft i
  | .write _ _ q =>
    (q.stepsLeft i < p.stepsLeft i ∧ q.transactionsLeft i < p.transactionsLeft i) ∧
      1 < p.stepsLeft i ∧ 0 < p.transactionsLeft i
  | .complete _ => 1 ≤ p.stepsLeft i

theorem scanSlot_nearer {i : Instr} (hi : i = .logAppend ∨ i = .logFindFree) (k : SlotIndex) (o : Operands) :
    (planOf i o (.scan k)).Nearer i (.scan k) := by
  have hk := k.isLt
  rcases hi with rfl | rfl
  all_goals
    refine ⟨fun bs => ?_, by simp only [Position.stepsLeft]; omega, by simp only [Position.transactionsLeft]; omega⟩
    by_cases hb : bs = [0x00]
    · simp only [hb, if_true, Position.stepsLeft, Position.transactionsLeft]; omega
    · by_cases h : k.val + 1 < 32
      · simp only [hb, if_false, nextSlot_some h, Position.stepsLeft, Position.transactionsLeft]; omega
      · simp only [hb, if_false, nextSlot_none (show k.val = 31 by omega), Position.stepsLeft,
          Position.transactionsLeft, Fin.val_zero]; omega

theorem eraseSlot_nearer {i : Instr} (hi : i = .logAppend ∨ i = .logErase) (k : SlotIndex) (o : Operands) :
    (planOf i o (.erase k)).Nearer i (.erase k) := by
  have hk := k.isLt
  rcases hi with rfl | rfl
  all_goals
    refine ⟨?_, by simp only [Position.stepsLeft]; omega, by simp only [Position.transactionsLeft]; omega⟩
    by_cases h : k.val + 1 < 32
    · rw [nextSlot_some h]; simp only [Position.stepsLeft, Position.transactionsLeft]; omega
    · rw [nextSlot_none (by omega)]; simp only [Position.stepsLeft, Position.transactionsLeft]; omega

/-- Every plan comes nearer to its completion with every step. -/
theorem planOf_nearer (i : Instr) (o : Operands) (p : Position) : (planOf i o p).Nearer i p := by
  cases i <;> cases p
  all_goals first
    | exact scanSlot_nearer (.inl rfl) _ o
    | exact scanSlot_nearer (.inr rfl) _ o
    | exact eraseSlot_nearer (.inl rfl) _ o
    | exact eraseSlot_nearer (.inr rfl) _ o
    | (simp only [planOf, planCrcCompute, planLogAppend, planLogErase, planLogReadReset, planLogReadNext,
        planLogCheckSlot, planLogFindFree, planMemRead, planMemWrite, planIllegal]
       first
         | (simp [Action.Nearer, Position.stepsLeft, Position.transactionsLeft, raise]; done)
         | (split <;> simp [Action.Nearer, Position.stepsLeft, Position.transactionsLeft, raise]))

theorem Position.stepsLeft_le (i : Instr) (p : Position) : p.stepsLeft i ≤ Config.maxSteps := by
  cases i <;> cases p <;> simp [Position.stepsLeft] <;> omega

theorem Position.transactionsLeft_le (i : Instr) (p : Position) : p.transactionsLeft i ≤ 65 := by
  cases i <;> cases p <;> simp [Position.transactionsLeft] <;> omega

end Sys2Proof.Machine
end

