-- ==== Sys2Proof/Laws/Crc.lean ====
section
/-! SUPPORT. The arithmetic of the CRC unit: the division is linear over exclusive OR, and a bit step loses nothing
(spec/40_crc.md R120). -/

namespace Sys2Proof.Machine

/-- `CRC16` as the fold it is, for the convention of spec/00_scope.md R9. -/
theorem crc16_eq_foldl (s : List Byte) : crc16 s = s.foldl crcByte 0xFFFF := by
  simp [crc16, Config.crcVariant]

theorem crcBit_eq (c : Half) : crcBit c = (c <<< 1) ^^^ (if c.msb then 0x1021 else 0x0000) := by
  unfold crcBit
  split <;> simp [Config.crcVariant]

/-- One bit step is linear. -/
theorem crcBit_xor (a b : Half) : crcBit (a ^^^ b) = crcBit a ^^^ crcBit b := by
  simp only [crcBit_eq, BitVec.msb_xor, BitVec.shiftLeft_xor_distrib]
  rw [show ∀ x y p q : Half, x ^^^ p ^^^ (y ^^^ q) = x ^^^ y ^^^ (p ^^^ q) by intros; ac_rfl]
  cases a.msb <;> cases b.msb <;> rfl

theorem crcBits_xor (k : Nat) (a b : Half) : crcBits k (a ^^^ b) = crcBits k a ^^^ crcBits k b := by
  induction k generalizing a b with
  | zero => rfl
  | succ k ih => simp only [crcBits, crcBit_xor, ih]

@[simp] theorem crcBits_zero (k : Nat) : crcBits k 0#16 = 0#16 := by
  induction k with
  | zero => rfl
  | succ k ih => exact ih

/-- One byte step is linear in the CRC and the byte together. -/
theorem crcByte_xor (c d : Half) (a b : Byte) : crcByte (c ^^^ d) (a ^^^ b) = crcByte c a ^^^ crcByte d b := by
  have h : (a ^^^ b).setWidth 16 <<< 8 = (a.setWidth 16 <<< 8) ^^^ ((b.setWidth 16 : Half) <<< 8) := by
    rw [BitVec.setWidth_xor, BitVec.shiftLeft_xor_distrib]
  unfold crcByte
  rw [h, ← crcBits_xor]
  congr 1
  ac_rfl

/-- The whole division is linear in the starting value and the bytes together. -/
theorem foldl_crcByte_xor (s : List Byte) :
    ∀ (t : List Byte) (c d : Half), s.length = t.length →
      (List.zipWith (· ^^^ ·) s t).foldl crcByte (c ^^^ d) = s.foldl crcByte c ^^^ t.foldl crcByte d := by
  induction s with
  | nil => intro t c d h; cases t with
    | nil => rfl
    | cons _ _ => simp at h
  | cons a s ih =>
    intro t c d h
    cases t with
    | nil => simp at h
    | cons b t =>
      simp only [List.length_cons, Nat.add_right_cancel_iff] at h
      simp only [List.zipWith_cons_cons, List.foldl_cons, crcByte_xor]
      exact ih t _ _ h

/-- A bit step loses nothing: only 0 goes to 0. -/
theorem crcBit_eq_zero {c : Half} (h : crcBit c = 0x0000) : c = 0x0000 := by
  rw [crcBit_eq] at h
  cases hm : c.msb with
  | true =>
    rw [hm] at h
    have := congrArg (fun v : Half => v.getLsbD 0) h
    simp at this
  | false =>
    rw [hm] at h
    have h2 : c.toNat < 2 ^ 15 := by
      have := BitVec.msb_eq_false_iff_two_mul_lt.1 hm
      omega
    have h3 := congrArg BitVec.toNat h
    simp [BitVec.toNat_shiftLeft, Nat.shiftLeft_eq] at h3
    apply BitVec.eq_of_toNat_eq
    simp
    omega

theorem crcBits_eq_zero {k : Nat} {c : Half} (h : crcBits k c = 0x0000) : c = 0x0000 := by
  induction k generalizing c with
  | zero => exact h
  | succ k ih => exact crcBit_eq_zero (ih h)

end Sys2Proof.Machine
end

