-- ==== Sys2Proof/Laws/Operands.lean ====
section
/-! SUPPORT. One lemma per operand form and operand check: what it is, said once in plain arithmetic. -/

namespace Sys2Proof.Machine

/-! ### Operands -/

/-- `x[ADDR] = ADDR_HI * 256 + ADDR_LO` (10_state.md R26). -/
theorem Regs.addr_toNat (r : Regs) : r.addr.toNat = r.addrHi.toNat * 256 + r.addrLo.toNat := by
  simp only [Regs.addr, BitVec.toNat_append]
  rw [← Nat.shiftLeft_add_eq_or_of_lt r.addrLo.isLt, Nat.shiftLeft_eq]

theorem hiByte_toNat (v : Half) : (hiByte v).toNat = v.toNat / 256 := by
  have := v.isLt
  simp only [hiByte, BitVec.extractLsb'_toNat, Nat.shiftRight_eq_div_pow]
  omega

theorem loByte_toNat (v : Half) : (loByte v).toNat = v.toNat % 256 := by
  simp [loByte]

/-- BUF has 64 bytes. -/
@[simp] theorem Buffer.length_toList (b : Buffer) : b.toList.length = 64 := by simp

theorem Operands.data_length {o : Operands} (h : o.n ≤ 64) : o.data.length = o.n := by
  simp [Operands.data]; omega

/-- What BUF holds once bytes have been loaded at its beginning. -/
theorem loadBuffer_toList (b : Buffer) {d : List Byte} (h : d.length ≤ 64) :
    (loadBuffer b d).toList = d ++ b.toList.drop d.length := by
  have : d.take 64 = d := List.take_of_length_le h
  simp [loadBuffer, this, Vector.toList]

/-- A whole slot fills BUF. -/
theorem loadBuffer_toList_all (b : Buffer) {d : List Byte} (h : d.length = 64) : (loadBuffer b d).toList = d := by
  rw [loadBuffer_toList b (by omega), h]
  simp

/-! ### Checks -/

/-- `RangeOK(a, n)` (42_raw_memory.md R201). -/
theorem rangeOK_iff (a n : Nat) : rangeOK a n = true ↔ a ≤ 32767 ∧ 1 ≤ n ∧ n ≤ 64 ∧ a % 64 + n ≤ 64 := by
  simp [rangeOK, and_assoc]

/-- The precondition of LOG_APPEND (41_log.md R150). -/
theorem messageOK_iff (o : Operands) : messageOK o = true ↔ 1 ≤ o.n ∧ o.n ≤ 61 ∧ ∀ b ∈ o.data, b ≠ 0x00 := by
  have h1 : (decide (Config.minMsg ≤ o.n) = true) ↔ 1 ≤ o.n := decide_eq_true_iff
  have h2 : (decide (o.n ≤ Config.maxMsg) = true) ↔ o.n ≤ 61 := decide_eq_true_iff
  simp only [messageOK, Bool.and_eq_true, h1, h2, List.all_eq_true, bne_iff_ne, and_assoc]

theorem Operands.slot?_some {o : Operands} (h : o.slot.toNat < 32) : o.slot? = some ⟨o.slot.toNat, h⟩ := dif_pos h

theorem Operands.slot?_none {o : Operands} (h : ¬ o.slot.toNat < 32) : o.slot? = .none := dif_neg h

@[simp] theorem SlotCount.slot?_castSucc (i : SlotIndex) : SlotCount.slot? i.castSucc = some i := by
  simp [SlotCount.slot?]

@[simp] theorem SlotCount.slot?_last : SlotCount.slot? 32 = .none := rfl

/-! ### Entries -/

@[simp] theorem encodeEntry_length (m : List Byte) : (encodeEntry m).length = m.length + 3 := by simp [encodeEntry]

@[simp] theorem Memory.slotBytes_length (m : Memory) (i : Nat) : (m.slotBytes i).length = 64 := by
  simp [Memory.slotBytes]

theorem tornBytes_getD {d n j : Nat} (h : j < n) (x : Byte) : (tornBytes d n).getD j x = Config.tornByte d j := by
  simp [tornBytes, List.getD, h]

end Sys2Proof.Machine
end

