-- ==== Sys2Proof/Laws/PerInstr.lean ====
section
/-! SUPPORT. Statements made for each command: its word is one byte, and that byte is one of the opcodes 30_encoding.md R93
calls illegal exactly when the command is the illegal one. -/

namespace Sys2Proof.Laws.OpcodeClass

/-- The word of a command is one byte; the byte of a well-formed command is reserved exactly when the command is
`illegal`. -/
def Statement (i : Instr) : Prop :=
  (encode i).length = 1 ∧ (i.wellFormed = true → (reservedOpcode i.opcode = true ↔ ∃ op, i = .illegal op))

theorem crcCompute : Statement .crcCompute := ⟨rfl, fun _ => ⟨fun h => absurd h (by decide), fun ⟨_, h⟩ => by cases h⟩⟩
theorem logAppend : Statement .logAppend := ⟨rfl, fun _ => ⟨fun h => absurd h (by decide), fun ⟨_, h⟩ => by cases h⟩⟩
theorem logErase : Statement .logErase := ⟨rfl, fun _ => ⟨fun h => absurd h (by decide), fun ⟨_, h⟩ => by cases h⟩⟩
theorem logReadReset : Statement .logReadReset :=
  ⟨rfl, fun _ => ⟨fun h => absurd h (by decide), fun ⟨_, h⟩ => by cases h⟩⟩
theorem logReadNext : Statement .logReadNext :=
  ⟨rfl, fun _ => ⟨fun h => absurd h (by decide), fun ⟨_, h⟩ => by cases h⟩⟩
theorem logCheckSlot : Statement .logCheckSlot :=
  ⟨rfl, fun _ => ⟨fun h => absurd h (by decide), fun ⟨_, h⟩ => by cases h⟩⟩
theorem logFindFree : Statement .logFindFree :=
  ⟨rfl, fun _ => ⟨fun h => absurd h (by decide), fun ⟨_, h⟩ => by cases h⟩⟩
theorem memRead : Statement .memRead := ⟨rfl, fun _ => ⟨fun h => absurd h (by decide), fun ⟨_, h⟩ => by cases h⟩⟩
theorem memWrite : Statement .memWrite := ⟨rfl, fun _ => ⟨fun h => absurd h (by decide), fun ⟨_, h⟩ => by cases h⟩⟩
theorem illegal (opcode : Byte) : Statement (.illegal opcode) := ⟨rfl, fun h => ⟨fun _ => ⟨opcode, rfl⟩, fun _ => h⟩⟩

end Sys2Proof.Laws.OpcodeClass
end

