-- ==== Sys2Proof/Machine/HostForms.lean ====
section
/-! DEFINITION. The forms of a host program and the host accesses they stand for (spec/30_encoding.md R110 to R112). -/

namespace Sys2Proof.Machine

/-- One line of a host program (30_encoding.md R110, R111). A register is named by its offset (10_state.md R21). -/
inductive HostForm where
  /-- `WR reg, v` -/
  | wr (off v : Byte)
  /-- `WRB j, bytes` -/
  | wrb (j : Fin 64) (bytes : List Byte)
  /-- `RD reg` -/
  | rd (off : Byte)
  /-- `CMD MNEMONIC` -/
  | cmd (i : Instr)
  /-- `WAIT` -/
  | wait
  /-- `SETADDR a` -/
  | setAddr (a : Half)
  /-- `RUN MNEMONIC` -/
  | run (i : Instr)
  /-- `APPEND "s"` -/
  | append (m : List Byte)
  /-- `ERASE` -/
  | erase
  /-- `NEXT` -/
  | next
  /-- `CLROVR` -/
  | clrOvr
  deriving DecidableEq, Repr

/-- `W(0x40+j+i, bytes[i])` for each i. An offset above 0xFF is no offset of the window (10_state.md R20), and the spec gives
such a line no access; here the offset wraps modulo 256 (DESIGN CHOICE, log entry 19). -/
def bufWrites (j : Nat) (bytes : List Byte) : List Input :=
  bytes.mapIdx fun i b => .write (BitVec.ofNat 8 (0x40 + j + i)) b

/-- `WAIT`: STATUS is read until BUSY is 0. Of those reads the last is kept, made once the command has completed; the others
change nothing (30_encoding.md R112; log entry 18). -/
def waitAccesses : List Input := [.finish, .read 0x01]

/-- `CMD MNEMONIC` and `WAIT`. -/
def runAccesses (i : Instr) : List Input := .write 0x00 i.opcode :: waitAccesses

/-- The host accesses of one line (30_encoding.md R110, R111). A line whose bytes pass the window, or an `append` of more than
255 bytes, whose number LEN cannot hold, is no line of the spec; here the offset and LEN wrap modulo 256 (DESIGN CHOICE, log
entry 19). -/
def HostForm.accesses : HostForm → List Input
  | .wr off v => [.write off v]
  | .wrb j bytes => bufWrites j bytes
  | .rd off => [.read off]
  | .cmd i => [.write 0x00 i.opcode]
  | .wait => waitAccesses
  | .setAddr a => [.write 0x04 (hiByte a), .write 0x05 (loByte a)]
  | .run i => runAccesses i
  | .append m => bufWrites 0 m ++ .write 0x03 (BitVec.ofNat 8 m.length) :: runAccesses .logAppend
  | .erase => runAccesses .logErase
  | .next => runAccesses .logReadNext
  | .clrOvr => [.write 0x01 0x40]

/-- The encoding of a host program (30_encoding.md R112): its accesses in program order. -/
def hostProgram (ls : List HostForm) : List Input := ls.flatMap HostForm.accesses

end Sys2Proof.Machine
end

