-- ==== Sys2Proof/Tests/Slice0.lean ====
section
/-! SUPPORT. Small tests of one step or one definition, their expected results from the rules and vectors of spec/, and for
every statement with hypotheses a concrete input that meets them, at the ends of each clause's range. -/

namespace Sys2Proof.Machine.Tests

-- One theorem after another: each takes little, and many at once take more memory than the check allows.
set_option Elab.async false

/-! ### Concrete states -/

/-- No command running, the timer run down, the memory holding `fill` everywhere but in `cells`, the memory's next answers
`answers`. -/
def atRest (fill : Byte) (cells : List Host.Cell) (answers : List Answer) : State :=
  { State.reset with twc := 0, tWc := 2, mem := { init := .filled fill, cells := cells }, answers := answers }

/-- As `atRest`, every transaction of a command and of a read sequence succeeding. -/
def calm (fill : Byte) (cells : List Host.Cell) : State := atRest fill cells (List.replicate 97 .ok)

/-- As `atRest`, transaction `k` failing and those before it succeeding. -/
def failing (k : Nat) (fill : Byte) (cells : List Host.Cell) : State := atRest fill cells (List.replicate k .ok ++ [.fail])

/-- The bytes of `m` in BUF and their number in LEN. -/
def holding (m : List Byte) (s : State) : State :=
  { s with regs := { s.regs with len := BitVec.ofNat 8 m.length, buf := loadBuffer s.regs.buf m } }

/-- The bytes `m` from address `a` on, as cells. -/
def bytesAt (a : Nat) (m : List Byte) : List Host.Cell := m.mapIdx fun j b => (a + j, b)

/-- A raw command's operands. -/
def operands (hi lo len : Byte) (s : State) : State :=
  { s with regs := { s.regs with addrHi := hi, addrLo := lo, len := len } }

/-- `s` with what the world outside does next. -/
def given (es : List Input) (s : State) : State := { s with inputs := es }

/-- Command `i` running at position `p` with the operands that the registers of `s` hold. -/
def running (i : Instr) (p : Position) (s : State) : State :=
  { s with seq := .busy { instr := i, ops := s.regs.sample, pos := p }, regs := { s.regs with cmd := i.opcode, done := false } }

/-- Whether one step goes on to a state with the property `p`. -/
def stepTo (s : State) (p : State → Bool) : Bool :=
  match step s with
  | .next t => p t
  | .fault _ | .refused _ => false

/-- STATUS as the host would read it. -/
def State.status (s : State) : Byte := s.valueOf .status

/-- "Boot" (95_test_vectors.md). -/
def boot : List Byte := [0x42, 0x6F, 0x6F, 0x74]

/-- Enc("Boot") (95_test_vectors.md). -/
def bootEntry : List Byte := [0x42, 0x6F, 0x6F, 0x74, 0x00, 0xBA, 0x1C]

/-- `n` entries "a" in the slots 0 to n - 1, in a memory that is 0x00 elsewhere: a well-formed log of count `n`
(95_test_vectors.md). -/
def logOf (n : Nat) : List Host.Cell := (List.range n).flatMap fun i => [(64 * i, 0x61), (64 * i + 2, 0x25), (64 * i + 3, 0x14)]

/-! ### Well-formedness: the check refuses ill-formed terms (30_encoding.md R93) -/

theorem test_wellFormed_refuses_a_listed_opcode : (Instr.illegal 0x03).wellFormed = false := by decide
theorem test_wellFormed_refuses_the_last_listed_opcode : (Instr.illegal 0x09).wellFormed = false := by decide
theorem test_wellFormed_takes_the_first_free_opcode : (Instr.illegal 0x0A).wellFormed = true := by decide

/-! ### Decoding, every word written from the table of 30_encoding.md R92 -/

theorem test_decode_crcCompute : decode [0b00000001] = .ok (.crcCompute, []) := rfl
theorem test_decode_logAppend : decode [0b00000010] = .ok (.logAppend, []) := rfl
theorem test_decode_logErase : decode [0b00000011] = .ok (.logErase, []) := rfl
theorem test_decode_logReadReset : decode [0b00000100] = .ok (.logReadReset, []) := rfl
theorem test_decode_logReadNext : decode [0b00000101] = .ok (.logReadNext, []) := rfl
theorem test_decode_logCheckSlot : decode [0b00000110] = .ok (.logCheckSlot, []) := rfl
theorem test_decode_logFindFree : decode [0b00000111] = .ok (.logFindFree, []) := rfl
theorem test_decode_memRead : decode [0b00001000] = .ok (.memRead, []) := rfl
theorem test_decode_memWrite : decode [0b00001001] = .ok (.memWrite, []) := rfl
theorem test_decode_illegal_zero : decode [0b00000000] = .ok (.illegal 0x00, []) := rfl
theorem test_decode_illegal_first : decode [0b00001010, 0x55] = .ok (.illegal 0x0A, [0x55]) := rfl
theorem test_decode_nothing : decode [] = .error .noByte := rfl
theorem test_decodeTableWord : decodeTableWord 8 0x07 = some .logFindFree ∧ decodeTableWord 8 0x107 = none := ⟨rfl, rfl⟩

/-! ### One command each (95_test_vectors.md) -/

/-- V1. -/
theorem test_crcCompute_check_value :
    stepTo (given [.run 0x01] (holding [0x31, 0x32, 0x33, 0x34, 0x35, 0x36, 0x37, 0x38, 0x39] (calm 0 []))) (fun t =>
      t.regs.crc == 0x29B1 && State.status t == 0x02) = true := by decide +kernel

/-- V7. -/
theorem test_crcCompute_len_65 :
    stepTo (given [.run 0x01] (operands 0 0 65 (calm 0 []))) (fun t =>
      t.regs.err == .badParam && State.status t == 0x22 && t.regs.crc == 0x0000) = true := by decide +kernel

/-- V10. -/
theorem test_logAppend_boot :
    stepTo (given [.run 0x02] (holding boot (calm 0 []))) (fun t =>
      t.mem.readBytes 0 8 == bootEntry ++ [0x00] && t.regs.rslt == 0 && t.regs.crc == 0xBA1C && State.status t == 0x02
        && t.draws == 2) = true := by decide +kernel

/-- V14. -/
theorem test_logAppend_wraps :
    stepTo (given [.run 0x02] (holding [0x78] (calm 0xFF []))) (fun t =>
      t.mem.readBytes 0 5 == [0x78, 0x00, 0x9C, 0xFF, 0xFF] && t.mem.readBytes 1984 2 == [0x00, 0xFF]
        && State.status t == 0x12 && t.draws == 65) = true := by decide +kernel

/-- V20. -/
theorem test_logErase :
    stepTo (given [.run 0x03] (calm 0xAA (bytesAt 0 bootEntry))) (fun t =>
      t.mem.readBytes 0 7 == [0x00, 0x6F, 0x6F, 0x74, 0x00, 0xBA, 0x1C] && t.mem.read 1984 == 0x00 && t.mem.read 2048 == 0xAA
        && State.status t == 0x02 && t.draws == 32) = true := by decide +kernel

/-- V47. -/
theorem test_logReadReset :
    stepTo (given [.run 0x04] { calm 0 [] with regs := { Regs.reset with cursor := 5, ended := true } }) (fun t =>
      t.regs.cursor == 0 && State.status t == 0x02 && t.draws == 0) = true := by decide +kernel

/-- V40. -/
theorem test_logReadNext_boot :
    stepTo (given [.run 0x05] (calm 0xAA (bytesAt 0 bootEntry))) (fun t =>
      t.regs.len == 4 && t.regs.buf.toList.take 7 == bootEntry && t.regs.cursor == 1 && State.status t == 0x06) = true := by
  decide +kernel

/-- V43. -/
theorem test_logReadNext_crc_mismatch :
    stepTo (given [.run 0x05] (calm 0 (bytesAt 0 [0x42, 0x6F, 0x6F, 0x74, 0x00, 0xBA, 0x1D]))) (fun t =>
      t.regs.len == 0 && t.regs.cursor == 0 && t.regs.err == .none && State.status t == 0x0A) = true := by decide +kernel

/-- V51, V53. -/
theorem test_logCheckSlot_keeps_end :
    stepTo (given [.run 0x06] { calm 0 (bytesAt 0x80 [0x61, 0x00, 0x25, 0x14]) with
      regs := { Regs.reset with slot := 2, cursor := 1, ended := true } }) (fun t =>
        t.regs.len == 1 && t.regs.buf.toList.take 1 == [0x61] && t.regs.cursor == 1 && State.status t == 0x0E) = true := by
  decide +kernel

/-- V52. -/
theorem test_logCheckSlot_32 :
    stepTo (given [.run 0x06] { calm 0 [] with regs := { Regs.reset with slot := 32 } }) (fun t =>
      t.regs.err == .badParam && State.status t == 0x22 && t.draws == 0) = true := by decide +kernel

/-- V31. -/
theorem test_logFindFree_full :
    stepTo (given [.run 0x07] (calm 0xFF [])) (fun t =>
      t.regs.rslt == 32 && State.status t == 0x12 && t.draws == 32) = true := by decide +kernel

/-- V32: a candidate that is not valid is not free. -/
theorem test_logFindFree_skips_a_candidate :
    stepTo (given [.run 0x07] (calm 0 [(0, 0x78)])) (fun t => t.regs.rslt == 1 && State.status t == 0x02) = true := by
  decide +kernel

/-- V60. -/
theorem test_memRead :
    stepTo (given [.run 0x08] (operands 0 0 7 (calm 0 (bytesAt 0 bootEntry)))) (fun t =>
      t.regs.buf.toList.take 8 == bootEntry ++ [0x00] && State.status t == 0x02) = true := by decide +kernel

/-- V62: the last byte of the memory can be read, one more cannot. -/
theorem test_memRead_top :
    (stepTo (given [.run 0x08] (operands 0x7F 0xFF 1 (calm 0 [(0x7FFF, 0x5A)]))) (fun t => t.regs.buf[0] == 0x5A)
      && stepTo (given [.run 0x08] (operands 0x7F 0xFF 2 (calm 0 []))) (fun t => t.regs.err == .badParam)) = true := by
  decide +kernel

/-- V61. -/
theorem test_memWrite :
    stepTo (given [.run 0x09] (operands 0x00 0x80 4 (holding [0x61, 0x00, 0x25, 0x14] (calm 0xAA [])))) (fun t =>
      t.mem.readBytes 0x7F 6 == [0xAA, 0x61, 0x00, 0x25, 0x14, 0xAA] && State.status t == 0x02) = true := by decide +kernel

/-- 20_memory.md R67, 60_exceptions.md R225: a write that fails. -/
theorem test_memWrite_fails :
    stepTo (given [.run 0x09] (operands 0x00 0x80 4 (failing 0 0xAA []))) (fun t =>
      t.regs.err == .ioError && t.regs.faddr == 0x0080 && State.status t == 0x22 && t.draws == 1) = true := by decide +kernel

/-- V70, V71. -/
theorem test_illegal :
    (stepTo (given [.run 0xFF] (calm 0 [])) (fun t => t.regs.err == .illegalCmd && State.status t == 0x22 && t.regs.cmd == 0xFF)
      && stepTo (given [.run 0x00] (calm 0 [])) (fun t => t.regs.err == .illegalCmd && t.regs.cmd == 0x00)) = true := by
  decide +kernel

/-! ### Entries and validity (95_test_vectors.md) -/

/-- V45: a flip that moves the terminator can leave a slot valid. -/
theorem test_valid_counterexample :
    validEntry ([0x41, 0x00, 0x23, 0xF2, 0x42, 0x00, 0xC1, 0xFF] ++ List.replicate 56 0) = some 1 := by decide +kernel

/-- V15: a 0x00 among the CRC bytes is no terminator. -/
theorem test_encode_with_a_zero_crc_byte : encodeEntry [0x4F] = [0x4F, 0x00, 0x00, 0xFD] := by decide +kernel

/-- W3: a terminator at offset 62 is too late. -/
theorem test_valid_terminator_62 : validEntry (List.replicate 62 0x78 ++ [0x00, 0x00]) = .none := by decide +kernel

/-! ### The window, single steps and reset (95_test_vectors.md) -/

/-- V81: a write to LEN while LOG_ERASE runs is dropped. -/
theorem test_overrun :
    stepTo (given [.write 0x03 0x09] (running .logErase .check (calm 0 []))) (fun t =>
      t.regs.len == 0 && State.status t == 0x41) = true := by decide +kernel

/-- V82: 0xBF to STATUS changes nothing, 0xFF clears OVERRUN. -/
theorem test_status_write :
    (stepTo (given [.write 0x01 0xBF] (running .logErase .check (calm 0 [])).dropWrite) (fun t => State.status t == 0x41)
      && stepTo (given [.write 0x01 0xFF] (running .logErase .check (calm 0 [])).dropWrite) (fun t => State.status t == 0x01))
      = true := by decide +kernel

/-- V80: a reserved offset, while a command runs. -/
theorem test_reserved_write :
    stepTo (given [.write 0x20 0x55] (running .logErase .check (calm 0 []))) (fun t => State.status t == 0x01) = true := by
  decide +kernel

/-- V84: BUSY only, at the acceptance of a command after another has completed. -/
theorem test_acceptance_clears_done :
    stepTo (given [.write 0x00 0x02] { calm 0 [] with regs := { Regs.reset with done := true } }) (fun t =>
      State.status t == 0x01 && t.regs.cmd == 0x02) = true := by decide +kernel

/-- 10_state.md R43: a write transaction loads the timer, and the sequencer then waits. -/
theorem test_write_loads_the_timer :
    (stepTo (given [.advance] (running .logErase (.erase 0) (calm 0xFF []))) (fun t => t.twc == 2 && t.mem.read 0 == 0x00)
      && stepTo (given [.advance] { running .logErase (.erase 1) (calm 0xFF []) with twc := 1 }) (fun t =>
        t.mem.read 64 == 0xFF)) = true := by decide +kernel

/-- V86: a reset during the write to slot 10 abandons the command, and its write is the one that is cut. -/
theorem test_reset_during_erase :
    stepTo (given [.reset true] (running .logErase (.erase 10) (calm 0xFF []))) (fun t =>
      t.draws == 1 && t.twc == 2 && State.status t == 0x00 && t.regs.cmd == 0x00) = true := by decide +kernel

/-- 70_reset_and_hazards.md R263: after reset, with no host access, time passes and nothing else. -/
theorem test_reset_does_nothing : step State.reset = .next State.reset.tick := rfl

/-- A word stored for the next step is what it runs. -/
theorem test_withFetchWord : step (State.reset.withFetchWord 8 0xFF) = exec (.illegal 0xFF) State.reset := rfl

/-! ### Host programs (95_test_vectors.md part 3) -/

/-- The encoding of `APPEND "Boot"`. -/
theorem test_append_form :
    (HostForm.append boot).accesses =
      [.write 0x40 0x42, .write 0x41 0x6F, .write 0x42 0x6F, .write 0x43 0x74, .write 0x03 0x04, .write 0x00 0x02,
        .finish, .read 0x01] := by decide

/-- `SETADDR 0x1234` (30_encoding.md R111). -/
theorem test_setAddr_form : (HostForm.setAddr 0x1234).accesses = [.write 0x04 0x12, .write 0x05 0x34] := by decide

/-! ### Witnesses: an input that meets the hypotheses of each statement of Certificates/Slice0/Obligations.lean -/

/-- A log whose only free slot is 31. -/
def lastFree : State := calm 0xFF [(1984, 0x00)]

theorem witness_DecodeOfEncodeIsTheCommand :
    Instr.memWrite.wellFormed = true ∧ (Instr.illegal 0x00).wellFormed = true ∧ (Instr.illegal 0xFF).wellFormed = true := by
  decide

theorem witness_EncodeOfDecodeIsTheWord : decode [0x09, 0x55] = .ok (.memWrite, [0x55]) ∧ decode [] = .error .noByte :=
  ⟨rfl, rfl⟩

theorem witness_StepRunsTheDecodedCommand :
    (given [.run 0x01] (calm 0 [])).inputs = .run 0x01 :: [] ∧ decode [0x01] = .ok (.crcCompute, []) := ⟨rfl, rfl⟩

/-- Of WholeCommandIsItsSingleSteps, EveryCommandCompletes, ReadResetResult, and the statements about all commands. -/
theorem witness_idle_and_a_next_state :
    (calm 0 []).seq = .idle ∧ State.reset.seq = .idle ∧ stepTo (given [.run 0x04] (calm 0 [])) (fun _ => true) = true ∧
      ∃ t, exec .logReadReset (calm 0 []) = .next t := ⟨rfl, rfl, rfl, _, rfl⟩

theorem witness_RunningCommandFinishes :
    (given [.finish] (running .logErase (.erase 31) (calm 0 []))).seq =
        .busy { instr := .logErase, ops := Regs.reset.sample, pos := .erase 31 } ∧
      (given [.finish] (running .logErase (.erase 31) (calm 0 []))).inputs = .finish :: [] := ⟨rfl, rfl⟩

theorem witness_CommandWhileBusyIsDropped : ∃ c, (running .memRead .raw (calm 0 [])).seq = .busy c := ⟨_, rfl⟩

/-- Each case of what a cut transaction leaves: no command, a command between transactions, and a write in progress. -/
theorem witness_ResetKeepsMemoryAndClearsRegisters :
    (given [.reset true] (calm 0 [])).inputs = .reset true :: [] ∧ (calm 0 []).seq = .idle ∧
      (given [.reset false] (running .memWrite .raw (operands 0 0 1 (calm 0 [])))).inputs = .reset false :: [] ∧
      (∃ c a v p, (running .memWrite .raw (operands 0 0 1 (calm 0 []))).seq = .busy c ∧ c.next = .write a v p) ∧
      (running .memWrite .raw (operands 0 0 1 (calm 0 []))).twc = 0 :=
  ⟨rfl, rfl, rfl, ⟨_, _, _, _, rfl, rfl⟩, rfl⟩

/-- The ends of each range of offsets. -/
theorem witness_WindowReads :
    (given [.read 0x7F] (calm 0 [])).inputs = .read 0x7F :: [] ∧
      (0x40#8).toNat = 0x40 + (0 : Fin 64).val ∧ (0x7F#8).toNat = 0x40 + (63 : Fin 64).val ∧
      (0x0D ≤ (0x0D#8).toNat ∧ (0x0D#8).toNat ≤ 0x3F) ∧ (0x0D ≤ (0x3F#8).toNat ∧ (0x3F#8).toNat ≤ 0x3F) ∧
      0x80 ≤ (0x80#8).toNat ∧ 0x80 ≤ (0xFF#8).toNat := by decide

/-- Of WritesWhileBusyAreDropped, at the ends of each range of offsets. -/
theorem witness_WritesWhileBusyAreDropped :
    (∃ c, (given [.write 0x7F 0x55] (running .logErase .check (calm 0 []))).seq = .busy c) ∧
      (given [.write 0x7F 0x55] (running .logErase .check (calm 0 []))).inputs = .write 0x7F 0x55 :: [] ∧
      ∀ off ∈ [0x00#8, 0x03, 0x06, 0x40, 0x7F],
        off = 0x00 ∨ (0x03 ≤ off.toNat ∧ off.toNat ≤ 0x06) ∨ (0x40 ≤ off.toNat ∧ off.toNat ≤ 0x7F) :=
  ⟨⟨_, rfl⟩, rfl, by decide⟩

/-- Of OperandWritesAreStored, StatusWriteClearsOverrunOnly, AcceptanceStep. -/
theorem witness_host_writes_while_idle :
    (given [.write 0x03 0xFF] (calm 0 [])).seq = .idle ∧ (given [.write 0x03 0xFF] (calm 0 [])).inputs = .write 0x03 0xFF :: [] ∧
      (given [.write 0x06 0xFF] (calm 0 [])).inputs = .write 0x06 0xFF :: [] ∧
      (given [.write 0x7F 0xFF] (calm 0 [])).inputs = .write 0x7F 0xFF :: [] ∧ (0x7F#8).toNat = 0x40 + (63 : Fin 64).val ∧
      (given [.write 0x01 0x40] (calm 0 [])).inputs = .write 0x01 0x40 :: [] ∧ (0x40#8).getLsbD 6 = true ∧
      (given [.write 0x00 0x02] (calm 0 [])).inputs = .write 0x00 0x02 :: [] := ⟨rfl, rfl, rfl, rfl, rfl, rfl, rfl, rfl⟩

/-- At the ends of each range of offsets, and a write to STATUS that clears nothing. -/
theorem witness_ReservedAndReadOnlyOffsets :
    (given [.write 0x02 0xFF] (calm 0 [])).inputs = .write 0x02 0xFF :: [] ∧
      (∀ off ∈ [0x02#8, 0x07, 0x3F, 0x80, 0xFF],
        off = 0x02 ∨ (0x07 ≤ off.toNat ∧ off.toNat ≤ 0x3F) ∨ 0x80 ≤ off.toNat) ∧
      (∀ off ∈ [0x0D#8, 0x3F, 0x80, 0xFF], (0x0D ≤ off.toNat ∧ off.toNat ≤ 0x3F) ∨ 0x80 ≤ off.toNat) ∧
      (given [.write 0x01 0xBF] (calm 0 [])).inputs = .write 0x01 0xBF :: [] ∧ (0xBF#8).getLsbD 6 = false :=
  ⟨rfl, by decide, by decide, rfl, rfl⟩

/-- A transaction and a completion that the timer holds back, and a tick. -/
theorem witness_TimerHoldsBackTheSequencer :
    (∃ c, (running .logErase (.erase 0) (calm 0 [])).seq = .busy c ∧ c.next.transaction.isSome) ∧
      (∃ c g, (running .logErase (.complete {}) (calm 0 [])).seq = .busy c ∧ c.pos = .complete g) ∧
      0 < { given [.advance] (running .logErase (.erase 0) (calm 0 [])) with twc := 1 }.twc ∧
      (given [.advance] (running .logErase (.erase 0) (calm 0 []))).inputs = .advance :: [] ∧
      (given [.tick] (calm 0 [])).inputs = .tick :: [] :=
  ⟨⟨_, rfl, rfl⟩, ⟨_, _, rfl, rfl⟩, by decide, rfl, rfl⟩

theorem witness_CompletionStep :
    ∃ c g, (given [.advance] (running .memRead (.complete { crc := some 0xBA1C }) (calm 0 []))).seq = .busy c ∧
      c.pos = .complete g ∧ (given [.advance] (running .memRead (.complete { crc := some 0xBA1C }) (calm 0 []))).twc = 0 ∧
      (given [.advance] (running .memRead (.complete { crc := some 0xBA1C }) (calm 0 []))).inputs = .advance :: [] :=
  ⟨_, _, rfl, rfl, rfl, rfl⟩

/-- The 64 bytes of the last block. -/
theorem witness_ReadTransactionReturnsMemory :
    ∃ c a n k, (given [.advance] (running .memRead .raw (operands 0x7F 0xC0 64 (calm 0 [])))).seq = .busy c ∧
      c.next = .read a n k ∧ (given [.advance] (running .memRead .raw (operands 0x7F 0xC0 64 (calm 0 [])))).twc = 0 ∧
      (given [.advance] (running .memRead .raw (operands 0x7F 0xC0 64 (calm 0 [])))).inputs = .advance :: [] ∧
      (given [.advance] (running .memRead .raw (operands 0x7F 0xC0 64 (calm 0 [])))).failsAt 0 = false :=
  ⟨_, _, _, _, rfl, rfl, rfl, rfl, rfl⟩

theorem witness_WriteTransactionStoresItsBytes :
    ∃ c a v p, (given [.advance] (running .memWrite .raw (operands 0x7F 0xFF 1 (calm 0 [])))).seq = .busy c ∧
      c.next = .write a v p ∧ (given [.advance] (running .memWrite .raw (operands 0x7F 0xFF 1 (calm 0 [])))).twc = 0 ∧
      (given [.advance] (running .memWrite .raw (operands 0x7F 0xFF 1 (calm 0 [])))).inputs = .advance :: [] ∧
      (given [.advance] (running .memWrite .raw (operands 0x7F 0xFF 1 (calm 0 [])))).failsAt 0 = false :=
  ⟨_, _, _, _, rfl, rfl, rfl, rfl, rfl⟩

/-- A read that fails and a write that fails. -/
theorem witness_FailedTransactionEffects :
    (∃ c a n k, (given [.advance] (running .logFindFree (.scan 0) (failing 0 0 []))).seq = .busy c ∧ c.next = .read a n k) ∧
      (∃ c a v p, (given [.advance] (running .logErase (.erase 31) (failing 0 0 []))).seq = .busy c ∧ c.next = .write a v p) ∧
      (given [.advance] (running .logErase (.erase 31) (failing 0 0 []))).twc = 0 ∧
      (given [.advance] (running .logErase (.erase 31) (failing 0 0 []))).inputs = .advance :: [] ∧
      (given [.advance] (running .logErase (.erase 31) (failing 0 0 []))).failsAt 0 = true :=
  ⟨⟨_, _, _, _, rfl, rfl⟩, ⟨_, _, _, _, rfl, rfl⟩, rfl, rfl, rfl⟩

theorem witness_TransactionsStayInTheirBlock :
    (Command.next { instr := .logReadNext, ops := Regs.reset.sample, pos := .slot 31 }).transaction = some (1984, 64) := rfl

theorem witness_CrcDifferenceLaw :
    [0x12#8, 0x34].length = [0x56#8, 0x78].length ∧ [0x00#8, 0x00].length = [0x44#8, 0x4C].length ∧
      [0x12#8, 0x34].length = [0x00#8, 0x00].length ∧
      List.zipWith (· ^^^ ·) [0x12#8, 0x34] [0x56, 0x78] = List.zipWith (· ^^^ ·) [0x00#8, 0x00] [0x44, 0x4C] := by decide

/-- The first and the last byte of a sequence. -/
theorem witness_CrcDetectsEverySingleBit : 0 < boot.length ∧ 3 < boot.length := by decide

/-- LEN 64 and LEN 65. -/
theorem witness_CrcComputeResult :
    (operands 0 0 64 (calm 0 [])).seq = .idle ∧ (operands 0 0 64 (calm 0 [])).regs.len.toNat ≤ 64 ∧
      64 < (operands 0 0 65 (calm 0 [])).regs.len.toNat := by decide

theorem witness_ValidityPredicate :
    (bootEntry ++ List.replicate 57 0xAA).length = 64 ∧ validEntry (bootEntry ++ List.replicate 57 0xAA) = some 4 := by
  decide +kernel

/-- Messages of 1 and of 61 bytes. -/
theorem witness_EncodedEntriesAreValid :
    (∀ b ∈ [0xFF#8], b ≠ 0x00) ∧ (encodeEntry [0xFF] ++ List.replicate 60 0).length = 64 ∧
      (List.replicate 61 0x78#8).length ≤ 61 ∧ (∀ b ∈ List.replicate 61 0x78#8, b ≠ 0x00) ∧
      (encodeEntry (List.replicate 61 0x78) ++ []).length = 64 := by decide +kernel

/-- A flip in a later byte that leaves it different from 0x00, and a flip of the first byte to 0x00. -/
theorem witness_SingleBitCorruptionIsDetected :
    validEntry (bootEntry ++ List.replicate 57 0xAA) = some 4 ∧ (0x74#8 ^^^ (1#8 <<< 0)) ≠ 0x00 ∧
      validEntry ([0x40, 0x00] ++ [0x10, 0xC3] ++ List.replicate 60 0) = some 1 ∧ (0x40#8 ^^^ (1#8 <<< 6)) = 0x00 := by
  decide +kernel

/-- The first free slot 0 with a message of 4 bytes, and the first free slot 31 with a message of 61 bytes. -/
theorem witness_AppendWritesTheFirstFreeSlot :
    (holding boot (calm 0 [])).regs.buf.toList.take (holding boot (calm 0 [])).regs.len.toNat = boot ∧
      (∀ b ∈ boot, b ≠ 0x00) ∧ (calm 0 []).mem.FreeSlot 0 ∧ (holding boot (calm 0 [])).NextSucceed 2 ∧
      (holding (List.replicate 61 0x78) lastFree).regs.len.toNat = 61 ∧
      (∀ i < 31, ¬ lastFree.mem.FreeSlot i) ∧ lastFree.mem.FreeSlot 31 ∧
      (holding (List.replicate 61 0x78) lastFree).NextSucceed 33 := by decide +kernel

theorem witness_AppendToAFullLogErasesFirst :
    (holding [0x78] (calm 0xFF [])).seq = .idle ∧ (holding [0x78] (calm 0xFF [])).regs.len.toNat = 1 ∧
      (∀ i < 32, ¬ (holding [0x78] (calm 0xFF [])).mem.FreeSlot i) ∧ (holding [0x78] (calm 0xFF [])).NextSucceed 65 := by
  decide +kernel

/-- LEN 0, LEN 62, and a 0x00 as the last byte of the message. -/
theorem witness_AppendOfAnIllegalMessage :
    (operands 0 0 0 (calm 0 [])).regs.len.toNat = 0 ∧ 61 < (operands 0 0 62 (calm 0 [])).regs.len.toNat ∧
      (0x00 ∈ (holding [0x42, 0x6F, 0x6F, 0x00] (calm 0 [])).regs.buf.toList.take
        (holding [0x42, 0x6F, 0x6F, 0x00] (calm 0 [])).regs.len.toNat) := by decide +kernel

/-- A scan read of slot 31, the erase of slot 0 and of slot 31, the entry write to slot 31, and the entry write after a full
erase. -/
theorem witness_AppendIoErrors :
    (holding boot (failing 31 0xFF [])).regs.buf.toList.take 4 = boot ∧ (∀ b ∈ boot, b ≠ 0x00) ∧
      (∀ j < 32, ¬ (holding boot (failing 31 0xFF [])).mem.FreeSlot j) ∧ (holding boot (failing 31 0xFF [])).FirstFailure 31 ∧
      (holding boot (failing 32 0xFF [])).FirstFailure (32 + 0) ∧ (holding boot (failing 63 0xFF [])).FirstFailure (32 + 31) ∧
      (holding boot (failing 64 0xFF [])).FirstFailure 64 ∧
      (∀ j < 31, ¬ (holding boot (failing 32 0xFF [(1984, 0x00)])).mem.FreeSlot j) ∧
      (holding boot (failing 32 0xFF [(1984, 0x00)])).mem.FreeSlot 31 ∧
      (holding boot (failing 32 0xFF [(1984, 0x00)])).FirstFailure (31 + 1) := by decide +kernel

/-- All writes succeed, the first fails, the last fails. -/
theorem witness_EraseResult :
    (calm 0xFF []).NextSucceed 32 ∧ (failing 0 0xFF []).FirstFailure 0 ∧ (failing 31 0xFF []).FirstFailure 31 := by
  decide +kernel

/-- Slot 0, slot 31, none free, and a failing read of slot 0 and of slot 31. -/
theorem witness_FindFreeResult :
    (calm 0 []).mem.FreeSlot 0 ∧ (calm 0 []).NextSucceed 1 ∧ (∀ i < 31, ¬ lastFree.mem.FreeSlot i) ∧
      lastFree.mem.FreeSlot 31 ∧ lastFree.NextSucceed 32 ∧ (∀ i < 32, ¬ (calm 0xFF []).mem.FreeSlot i) ∧
      (calm 0xFF []).NextSucceed 32 ∧ (failing 0 0xFF []).FirstFailure 0 ∧
      (∀ j < 31, ¬ (failing 31 0xFF []).mem.FreeSlot j) ∧ (failing 31 0xFF []).FirstFailure 31 := by decide +kernel

/-- END 1; CURSOR 32; slot 0 valid; slot 31 not valid; a failing read. -/
theorem witness_ReadNextResult :
    { Regs.reset with ended := true }.ended = true ∧ { Regs.reset with cursor := 32 }.cursor = 32 ∧
      Regs.reset.ended = false ∧ Regs.reset.cursor = (0 : Fin 32).castSucc ∧ (calm 0 (bytesAt 0 bootEntry)).failsAt 0 = false ∧
      validEntry ((calm 0 (bytesAt 0 bootEntry)).mem.slotBytes 0) = some 4 ∧
      { Regs.reset with cursor := 31 }.cursor = (31 : Fin 32).castSucc ∧
      validEntry ((calm 0 []).mem.slotBytes 31) = .none ∧ (failing 0 0 []).failsAt 0 = true := by decide +kernel

/-- SLOT 32 and SLOT 31, the read succeeding and failing. -/
theorem witness_CheckSlotResult :
    31 < { Regs.reset with slot := 32 }.slot.toNat ∧ { Regs.reset with slot := 31 }.slot.toNat ≤ 31 ∧
      (calm 0 []).failsAt 0 = false ∧ (failing 0 0 []).failsAt 0 = true := by decide

/-- 95_test_vectors.md V62: the refused operands, and the last byte of the memory. -/
theorem witness_RawRangeCheck :
    (∀ x ∈ [(0x7FFF, 2), (0x8000, 1), (0xFFFF, 1), (0x0000, 0), (0x0000, 65), (0x003F, 2)],
      ¬ (x.1 ≤ 32767 ∧ 1 ≤ x.2 ∧ x.2 ≤ 64 ∧ x.1 % 64 + x.2 ≤ 64)) ∧
      (0x7FFF = (operands 0x7F 0xFF 1 (calm 0 [])).regs.addrHi.toNat * 256 +
        (operands 0x7F 0xFF 1 (calm 0 [])).regs.addrLo.toNat) ∧
      (0x7FFF ≤ 32767 ∧ 1 ≤ 1 ∧ 1 ≤ 64 ∧ 0x7FFF % 64 + 1 ≤ 64) := by decide

/-- Of MemReadResult and MemWriteResult: one byte at the top and the whole slot 0, the transaction succeeding and failing. -/
theorem witness_MemReadResult_MemWriteResult :
    (operands 0x7F 0xFF 1 (calm 0 [])).seq = .idle ∧
      0x7FFF = (operands 0x7F 0xFF 1 (calm 0 [])).regs.addrHi.toNat * 256 +
        (operands 0x7F 0xFF 1 (calm 0 [])).regs.addrLo.toNat ∧
      0x7FFF % 64 + 1 ≤ 64 ∧ (operands 0x00 0x00 64 (calm 0 [])).regs.len.toNat = 64 ∧ 0x0000 % 64 + 64 ≤ 64 ∧
      (calm 0 []).failsAt 0 = false ∧ (failing 0 0 []).failsAt 0 = true := by decide

/-- The opcodes 0x00, 0x0A and 0xFF. -/
theorem witness_IllegalOpcodeResult :
    (given [.run 0xFF] (calm 0 [])).seq = .idle ∧ (∀ op ∈ [0x00#8, 0x0A, 0xFF], op = 0x00 ∨ 0x0A ≤ op.toNat) ∧
      (given [.run 0xFF] (calm 0 [])).inputs = .run 0xFF :: [] := ⟨rfl, by decide, rfl⟩

/-- A register that a command changes, of each kind, so that no clause of ResultRegistersChangeOnlyByTheirCommands is
empty. -/
theorem witness_ResultRegistersChangeOnlyByTheirCommands :
    stepTo (given [.run 0x05] (calm 0xAA (bytesAt 0 bootEntry))) (fun t =>
      t.regs.cursor != 0 && t.regs.len != 0 && t.regs.buf != Regs.reset.buf && t.regs.valid) = true ∧
    stepTo (given [.run 0x05] (calm 0 [])) (fun t => t.regs.ended) = true ∧
    stepTo (given [.run 0x02] (holding boot (calm 0xFF []))) (fun t => t.regs.crc != 0 && t.regs.full && t.mem.read 0 != 0xFF) = true ∧
    stepTo (given [.run 0x07] (calm 0xFF [])) (fun t => t.regs.rslt != 0) = true ∧
    stepTo (given [.run 0x05] { failing 0 0 [] with regs := { Regs.reset with cursor := 1 } }) (fun t => t.regs.faddr != 0) = true ∧
    stepTo (given [.run 0x09] (operands 0x08 0 1 (calm 0xFF []))) (fun t => t.mem.read 2048 != 0xFF) = true := by
  decide +kernel

/-- A step after which the command still runs. -/
theorem witness_RegistersStandStillWhileBusy :
    ∃ t c c', (given [.advance] (running .logErase (.erase 0) (calm 0 []))).seq = .busy c ∧
      step (given [.advance] (running .logErase (.erase 0) (calm 0 []))) = .next t ∧ t.seq = .busy c' :=
  ⟨_, _, _, rfl, rfl, rfl⟩

theorem witness_OverrunIsSticky :
    (given [.write 0x01 0x40] (calm 0 []).dropWrite).regs.overrun = true ∧
      stepTo (given [.write 0x01 0x40] (calm 0 []).dropWrite) (fun t => !t.regs.overrun) = true ∧
      stepTo (given [.reset false] (calm 0 []).dropWrite) (fun t => !t.regs.overrun) = true := by decide +kernel

/-- `calm` after a read sequence has ended at slot 1: CURSOR, END and the BUF bytes beyond LEN are not those of reset. -/
def midSequence : State :=
  { calm 0 [] with regs := { Regs.reset with cursor := 1, ended := true, buf := Vector.replicate 64 0xAA } }

/-- Two states that differ in CURSOR, in END and in a BUF byte beyond LEN, with one memory, one message and the same draws. -/
theorem witness_AppendDependsOnMemoryAndMessageOnly :
    (holding boot (calm 0 [])).seq = .idle ∧ (holding boot midSequence).seq = .idle ∧
      (holding boot midSequence).mem = (holding boot (calm 0 [])).mem ∧
      (holding boot midSequence).regs.len = (holding boot (calm 0 [])).regs.len ∧
      (holding boot midSequence).regs.buf.toList.take (holding boot (calm 0 [])).regs.len.toNat =
        (holding boot (calm 0 [])).regs.buf.toList.take (holding boot (calm 0 [])).regs.len.toNat ∧
      (holding boot midSequence).answers = (holding boot (calm 0 [])).answers ∧
      (holding boot midSequence).draws = (holding boot (calm 0 [])).draws ∧
      (holding boot midSequence).regs.cursor ≠ (holding boot (calm 0 [])).regs.cursor ∧
      (holding boot midSequence).regs.ended ≠ (holding boot (calm 0 [])).regs.ended ∧
      (holding boot midSequence).regs.buf[63] ≠ (holding boot (calm 0 [])).regs.buf[63] ∧
      stepTo (given [.run 0x02] (holding boot (calm 0 []))) (fun _ => true) = true := by decide +kernel

/-- A byte that each writing command changes, at an end of its range: the last byte of an entry of 61 bytes in slot 31, the
first byte of slot 31, and the last byte of the memory. -/
theorem witness_CommandsKeepEverythingElse :
    stepTo (given [.run 0x02] (holding (List.replicate 61 0x78) lastFree)) (fun t => t.mem.read 2047 == 0x0E) = true ∧
      2047 % 64 < 61 + 3 ∧
      stepTo (given [.run 0x03] (calm 0xFF [])) (fun t => t.mem.read 1984 == 0x00) = true ∧
      stepTo (given [.run 0x09] (operands 0x7F 0xFF 1 (calm 0xFF []))) (fun t => t.mem.read 32767 == 0x00) = true := by
  decide +kernel

theorem witness_ReadSequenceYieldsTheItems :
    (calm 0 (bytesAt 0 bootEntry)).seq = .idle ∧ (calm 0 (bytesAt 0 bootEntry)).NextSucceed 32 ∧
      (calm 0 (bytesAt 0 bootEntry)).mem.items = [boot] := by decide +kernel

theorem witness_EraseLeavesAnEmptyLog : (calm 0xAA []).seq = .idle ∧ (calm 0xAA []).NextSucceed 64 := by decide +kernel

/-- Of AppendKeepsTheLogWellFormed and AppendThenReadYieldsTheMessageLast: an erased log, a log with one free slot, and a full
log of valid entries. -/
theorem witness_AppendKeepsTheLogWellFormed :
    (holding boot (calm 0 [])).mem.WellFormedLog 0 ∧ (holding boot (calm 0 [])).NextSucceed 97 ∧
      (holding boot (calm 0 [])).regs.len.toNat = 4 ∧ (∀ b ∈ boot, b ≠ 0x00) ∧
      (holding boot (calm 0 (logOf 31))).seq = .idle ∧ (holding boot (calm 0 (logOf 31))).mem.WellFormedLog 31 ∧
      (holding boot (calm 0 (logOf 31))).regs.buf.toList.take 4 = boot ∧
      (holding boot (calm 0 (logOf 31))).NextSucceed 97 ∧
      (holding boot (calm 0 (logOf 32))).mem.WellFormedLog 32 ∧ (holding boot (calm 0 (logOf 32))).NextSucceed 97 := by
  decide +kernel

/-- A state with a command running that meets the invariant, and a step from it. -/
theorem witness_StepKeepsTheInvariant :
    (running .logErase (.erase 3) (calm 0xFF [])).Inv ∧
      ∃ t, step (given [.advance] (running .logErase (.erase 3) (calm 0xFF []))) = .next t :=
  ⟨{ memory := rfl, timer := by decide, errFlag := rfl, errorClears := fun h => absurd rfl h, validOrFull := by decide
     running := fun c h => by cases h; exact ⟨rfl, rfl, rfl⟩, staged := fun c g h hp => by cases h; cases hp }, _, rfl⟩

end Sys2Proof.Machine.Tests
end

section
/-! A command run as a script of single sequencer steps and units of time (O5). The whole-command grain waits for the timer
before every step of the plan; the script does the same with one `tick` for each unit that the timer still holds, and then one
`advance`. -/

namespace Sys2Proof.Machine

/-- `s` with the events `es` to come before the rest of its script. -/
def State.withScript (es : List Input) (s : State) : State := { s with inputs := es ++ s.inputs }

@[simp] theorem State.withScript_seq (es : List Input) (s : State) : (s.withScript es).seq = s.seq := rfl

@[simp] theorem State.withScript_nil (s : State) : s.withScript [] = s := rfl

/-! ### The sequencer does not look at the script -/

/-- A sequencer step is the same whatever the script holds. -/
theorem State.perform_withScript (es : List Input) (c : Command) (a : Action) (s : State) :
    (s.withScript es).perform c a = (s.perform c a).withScript es := by
  cases a <;> rfl

theorem State.mayAdvance_withScript (es : List Input) (s : State) : (s.withScript es).mayAdvance = s.mayAdvance := rfl

theorem State.advance_withScript (es : List Input) (s : State) : (s.withScript es).advance = s.advance.withScript es := by
  simp only [State.advance, State.withScript_seq, State.mayAdvance_withScript, State.perform_withScript]
  split
  · rfl
  · split <;> rfl

/-- The command that runs after a sequencer step is the one that ran before it. -/
theorem State.perform_seq_instr {s : State} {c d : Command} {a : Action} (h : (s.perform c a).seq = .busy d) :
    d.instr = c.instr := by
  cases a <;> cases h <;> rfl

/-- With the timer run down, the sequencer takes the step that the plan says (10_state.md R43). -/
theorem State.settle_advance {s : State} {c : Command} (h : s.seq = .busy c) :
    s.settle.advance = s.settle.perform c (planOf c.instr c.ops c.pos) := by
  simp [State.advance, State.mayAdvance, h, Command.next]

/-! ### One event of the script -/

theorem stepTimes_tick (k : Nat) (es : List Input) (s : State) :
    stepTimes (k + 1) (s.withScript (.tick :: es)) = stepTimes k (s.tick.withScript es) := rfl

theorem stepTimes_advance (k : Nat) (es : List Input) (s : State) :
    stepTimes (k + 1) (s.withScript (.advance :: es)) = stepTimes k (s.advance.withScript es) := by
  rw [← State.advance_withScript]
  rfl

/-- The host's write to CMD while no command runs is the acceptance (10_state.md R41). -/
theorem stepTimes_write_cmd {s : State} (k : Nat) (op : Byte) (es : List Input) (h : s.seq = .idle) :
    stepTimes (k + 1) (s.withScript (.write 0x00 op :: es)) =
      stepTimes k ((s.accept (decodeByte op)).withScript es) := by
  have hw : (s.withScript es).hostWrite 0x00 op = (s.accept (decodeByte op)).withScript es := by
    change (s.withScript es).writeCmd op = _
    rw [State.writeCmd, (s.withScript es).isBusy_idle h]
    rfl
  rw [← hw]
  rfl

/-- As many units of time as the timer still holds run it down. -/
theorem stepTimes_ticks_settle (k : Nat) (es : List Input) {n : Nat} :
    ∀ {s : State}, s.twc = n →
      stepTimes (n + k) (s.withScript (List.replicate n .tick ++ es)) = stepTimes k (s.settle.withScript es) := by
  induction n with
  | zero =>
    intro s hs
    have : s.settle = s := by rw [State.settle, ← hs]
    rw [this, Nat.zero_add]
    rfl
  | succ n ih =>
    intro s hs
    have htick : s.tick.twc = n := by simp [hs]
    rw [Nat.succ_add, List.replicate_succ, List.cons_append, stepTimes_tick, ih htick]
    rfl

/-! ### A whole plan -/

/-- A running command that is left alone for `k` steps of its plan is some script of single sequencer steps and time. -/
theorem exists_singleSteps_runPlan (i : Instr) (k : Nat) :
    ∀ s : State, (∀ c, s.seq = .busy c → c.instr = i) →
      ∃ es : List Input, (∀ e ∈ es, e = .advance ∨ e = .tick) ∧
        stepTimes es.length (s.withScript es) = .next (s.runPlan (planOf i) k) := by
  induction k with
  | zero => exact fun s _ => ⟨[], by simp, rfl⟩
  | succ k ih =>
    intro s hi
    cases hs : s.seq with
    | idle => exact ⟨[], by simp, by rw [State.runPlan_idle _ _ hs]; rfl⟩
    | busy c =>
      obtain rfl := hi c hs
      obtain ⟨es, hes, hrun⟩ := ih (s.settle.perform c (planOf c.instr c.ops c.pos)) fun _ => State.perform_seq_instr
      refine ⟨List.replicate s.twc .tick ++ .advance :: es, fun e he => ?_, ?_⟩
      · rcases List.mem_append.1 he with he | he
        · exact .inr (List.eq_of_mem_replicate he)
        · rcases List.mem_cons.1 he with rfl | he
          · exact .inl rfl
          · exact hes e he
      · rw [List.length_append, List.length_replicate, List.length_cons, stepTimes_ticks_settle _ _ rfl, stepTimes_advance,
          State.settle_advance hs, hrun, State.runPlan, hs]

/-- A command given while none runs is the host's write to CMD and then some script of single sequencer steps and time. -/
theorem exists_singleSteps_exec {s : State} (op : Byte) (h : s.seq = .idle) :
    ∃ es : List Input, (∀ e ∈ es, e = .advance ∨ e = .tick) ∧
      stepTimes (es.length + 1) (s.withScript (.write 0x00 op :: es)) = exec (decodeByte op) s := by
  obtain ⟨es, hes, hrun⟩ := exists_singleSteps_runPlan (decodeByte op) Config.maxSteps (s.accept (decodeByte op))
    fun c hc => by cases hc; rfl
  refine ⟨es, hes, ?_⟩
  rw [stepTimes_write_cmd _ _ _ h, hrun, exec_eq_runCommand, runCommand_idle _ _ h, State.accept_eq_midway]

/-- Settles O5: the script lets the write-cycle timer run down before each step of the plan, so single steps and the whole
command reach the same state. -/
theorem wholeCommandIsItsSingleSteps : Obligations.WholeCommandIsItsSingleSteps := by
  unfold Obligations.WholeCommandIsItsSingleSteps
  intro s op rest hs
  exact exists_singleSteps_exec (s := { s with inputs := rest }) op hs

end Sys2Proof.Machine
end

section
/-! Where the actions of a plan lead, and what a whole command leaves: every command stages results that the table of
10_state.md R35 allows, and two machines that answer its transactions alike run it in lockstep. -/

namespace Sys2Proof.Machine

/-! ### Where an action leads -/

/-- The positions at which a command can stand after an action, the transaction's failure included; a completion keeps the
results it writes. -/
def Action.LeadsTo : Action → Position → Prop
  | .goto p, q => q = p
  | .read a _ k, q => q = raise .ioError (some a) ∨ ∃ bs, q = k bs
  | .write a _ p, q => q = raise .ioError (some a) ∨ q = p
  | .complete g, q => q = .complete g

theorem Action.read_leadsTo (a n : Nat) (k : List Byte → Position) (fails : Bool) (bs : List Byte) :
    (Action.read a n k).LeadsTo (if fails then raise .ioError (some a) else k bs) := by
  cases fails
  · exact .inr ⟨bs, rfl⟩
  · exact .inl rfl

theorem Action.write_leadsTo (a : Nat) (v : List Byte) (p : Position) (fails : Bool) :
    (Action.write a v p).LeadsTo (if fails then raise .ioError (some a) else p) := by
  cases fails
  · exact .inr rfl
  · exact .inl rfl

theorem Action.Fits.leadsTo {i : Instr} {a : Action} {q : Position} (hfits : a.Fits i) (hq : a.LeadsTo q) :
    q.Fits i := by
  cases a with
  | goto p => obtain rfl := hq; exact hfits
  | read b n k =>
    obtain ⟨hk, hraise⟩ := hfits
    obtain rfl | ⟨bs, rfl⟩ := hq
    · exact hraise
    · exact hk bs
  | write b v p =>
    obtain ⟨hp, hraise⟩ := hfits
    obtain rfl | rfl := hq
    · exact hraise
    · exact hp
  | complete g => obtain rfl := hq; exact hfits

theorem Position.stepsLeft_pos (i : Instr) (p : Position) : 0 < p.stepsLeft i := by
  cases i <;> cases p <;> simp [Position.stepsLeft] <;> omega

/-- Only a completion does not come nearer to the completion. -/
theorem Action.Nearer.leadsTo {i : Instr} {p q : Position} {a : Action} (hnear : a.Nearer i p) (hq : a.LeadsTo q)
    (hrun : ∀ g, a ≠ .complete g) : q.stepsLeft i < p.stepsLeft i := by
  cases a with
  | goto p => obtain rfl := hq; exact hnear.1
  | read b n k =>
    obtain ⟨hk, hraise, -⟩ := hnear
    obtain rfl | ⟨bs, rfl⟩ := hq
    · exact hraise
    · exact (hk bs).1
  | write b v p =>
    obtain ⟨hp, hraise, -⟩ := hnear
    obtain rfl | rfl := hq
    · exact hraise
    · exact hp.1
  | complete g => exact absurd rfl (hrun g)

/-- A sequencer step completes the command, or changes no register and leaves the command at a position its action leads
to. -/
theorem State.perform_cases (s : State) (c : Command) (a : Action) :
    (∃ g, a = .complete g) ∨
      ∃ q, a.LeadsTo q ∧ (s.perform c a).seq = .busy { c with pos := q } ∧ (s.perform c a).regs = s.regs := by
  cases a with
  | goto p => exact .inr ⟨p, rfl, rfl, rfl⟩
  | read b n k => exact .inr ⟨_, Action.read_leadsTo b n k _ _, rfl, rfl⟩
  | write b v p => exact .inr ⟨_, Action.write_leadsTo b v p _, rfl, rfl⟩
  | complete g => exact .inl ⟨g, rfl⟩

/-- The operands are sampled once, at acceptance (10_state.md R40). -/
theorem State.perform_seq_ops {s : State} {c d : Command} {a : Action} (h : (s.perform c a).seq = .busy d) :
    d.ops = c.ops := by
  cases a <;> cases h <;> rfl

/-! ### A whole command -/

theorem exec_busy {s : State} {c : Command} (i : Instr) (h : s.seq = .busy c) : exec i s = .next s.dropWrite := by
  rw [exec_eq_runCommand, runCommand_busy i _ h]

theorem exec_idle {s : State} (i : Instr) (h : s.seq = .idle) :
    exec i s = .next ((s.accept i).runPlan (planOf i) Config.maxSteps) := by
  rw [exec_eq_runCommand, runCommand_idle i _ h, State.accept_eq_midway]

/-- The same command on two machines whose transactions are answered alike: both leave the same memory and write the same
results, whatever their registers and timers hold. `Q` is what is known of the position: its plan keeps it. -/
theorem State.runPlan_lockstep {i : Instr} {s s' : State} {c c' : Command} {Q : Position → Prop}
    (hans : s'.answers = s.answers) (hdraws : s'.draws = s.draws) (hplan : planOf i c'.ops = planOf i c.ops)
    (hQ : ∀ p q, Q p → (planOf i c.ops p).LeadsTo q → Q q) (k : Nat) :
    ∀ (p : Position) (n : Nat) (m : Memory) (w w' : Nat), Q p → p.stepsLeft i ≤ k →
      ∃ (n' : Nat) (g : Staged) (m' : Memory), Q (.complete g) ∧
        (s.midway n c p m w).runPlan (planOf i) k = s.after n' (s.regs.commit g) m' ∧
        (s'.midway n c' p m w').runPlan (planOf i) k = s'.after n' (s'.regs.commit g) m' := by
  have hfails (n : Nat) : s'.failsAt n = s.failsAt n := by
    simpa using State.failsAt_congr (s := s) (t := s') (d := 0) hans hdraws n
  induction k with
  | zero => intro p n m w w' _ hk; have := p.stepsLeft_pos i; omega
  | succ k ih =>
    intro p n m w w' hp hk
    have hnear := planOf_nearer i c.ops p
    have hleads := hQ p
    have hplan' := congrFun hplan p
    cases ha : planOf i c.ops p with
    | complete g =>
      rw [ha] at hleads hplan'
      exact ⟨n, g, m, hleads _ hp rfl, State.runPlan_complete k ha, State.runPlan_complete k hplan'⟩
    | goto q =>
      rw [ha] at hnear hleads hplan'
      rw [State.runPlan_goto k ha, State.runPlan_goto k hplan']
      have hlt := hnear.leadsTo rfl (by simp)
      exact ih q n m 0 0 (hleads q hp rfl) (by omega)
    | read a l f =>
      rw [ha] at hnear hleads hplan'
      rw [State.runPlan_read k ha, State.runPlan_read k hplan', hfails]
      have hto := Action.read_leadsTo a l f (s.failsAt n) (m.readBytes a l)
      have hlt := hnear.leadsTo hto (by simp)
      exact ih _ (n + 1) m 0 0 (hleads _ hp hto) (by omega)
    | write a v q =>
      rw [ha] at hnear hleads hplan'
      rw [State.runPlan_write k ha, State.runPlan_write k hplan', hfails, hdraws]
      have hto := Action.write_leadsTo a v q (s.failsAt n)
      have hlt := hnear.leadsTo hto (by simp)
      exact ih _ (n + 1) _ s.tWc s'.tWc (hleads _ hp hto) (by omega)

/-- The same command given to two idle machines whose memories hold the same and answer alike. -/
theorem exec_lockstep {i : Instr} {s s' : State} {Q : Position → Prop} (hs : s.seq = .idle) (hs' : s'.seq = .idle)
    (hmem : s'.mem = s.mem) (hans : s'.answers = s.answers) (hdraws : s'.draws = s.draws)
    (hplan : planOf i s'.regs.sample = planOf i s.regs.sample) (hcheck : Q .check)
    (hQ : ∀ p q, Q p → (planOf i s.regs.sample p).LeadsTo q → Q q) :
    ∃ (n : Nat) (g : Staged) (m : Memory), Q (.complete g) ∧
      exec i s = .next (s.after n ((s.begun i).regs.commit g) m) ∧
      exec i s' = .next (s'.after n ((s'.begun i).regs.commit g) m) := by
  obtain ⟨n, g, m, hg, hrun, hrun'⟩ := State.runPlan_lockstep (i := i) (s := s.begun i) (s' := s'.begun i)
    (c := .fresh i s.regs) (c' := .fresh i s'.regs) hans hdraws hplan hQ Config.maxSteps .check 0 s.mem s.twc s'.twc
    hcheck (Position.stepsLeft_le i _)
  refine ⟨n, g, m, hg, ?_, ?_⟩
  · rw [exec_idle i hs, State.accept_eq_midway, hrun, State.begun_after]
  · rw [exec_idle i hs', State.accept_eq_midway, hmem, hrun', State.begun_after]

/-- What a command leaves: its staged results in the registers, and nothing else of them. -/
theorem exec_idle_outcome {i : Instr} {s t : State} (hs : s.seq = .idle) (ht : exec i s = .next t) :
    ∃ (n : Nat) (g : Staged) (m : Memory), MayStage i g ∧ t = s.after n ((s.begun i).regs.commit g) m := by
  obtain ⟨n, g, m, hg, hrun, -⟩ := exec_lockstep (i := i) (s' := s) (Q := Position.Fits i) hs hs rfl rfl rfl rfl
    trivial fun p q hp hq => (planOf_fits i _ p hp).leadsTo hq
  rw [hrun] at ht
  cases ht
  exact ⟨n, g, m, hg, rfl⟩

/-! ### Where commands write -/

/-- The writes of the plans: an erase of one slot, the entry of LOG_APPEND, and the bytes of MEM_WRITE. -/
theorem planOf_write_cases {i : Instr} {o : Operands} {p q : Position} {a : Nat} {v : List Byte}
    (h : planOf i o p = .write a v q) :
    ((i = .logAppend ∨ i = .logErase) ∧ ∃ t : SlotIndex, a = slotBase t ∧ v = [0x00]) ∨
    (i = .logAppend ∧ messageOK o = true ∧ ∃ t : SlotIndex, a = slotBase t ∧ v = encodeEntry o.data) ∨
    (i = .memWrite ∧ rangeOK o.a o.n = true ∧ a = o.a ∧ v = o.data) := by
  cases i with
  | logAppend =>
    cases p with
    | erase t => cases h; exact .inl ⟨.inl rfl, t, rfl, rfl⟩
    | entry t wrapped =>
      simp only [planOf, planLogAppend] at h
      split at h
      next hok => cases h; exact .inr (.inl ⟨rfl, hok, t, rfl, rfl⟩)
      next => cases h
    | check | scan _ | slot _ | raw | complete _ => cases h
  | logErase =>
    cases p with
    | erase t => cases h; exact .inl ⟨.inr rfl, t, rfl, rfl⟩
    | check | scan _ | entry _ _ | slot _ | raw | complete _ => cases h
  | memWrite =>
    cases p with
    | raw =>
      simp only [planOf, planMemWrite] at h
      split at h
      next hok => cases h; exact .inr (.inr ⟨rfl, hok, rfl, rfl⟩)
      next => cases h
    | check | scan _ | erase _ | entry _ _ | slot _ | complete _ => cases h
  | memRead =>
    cases p with
    | raw => simp only [planOf, planMemRead] at h; split at h <;> cases h
    | check | scan _ | erase _ | entry _ _ | slot _ | complete _ => cases h
  | crcCompute | logReadReset | logReadNext | logCheckSlot | logFindFree | illegal _ => cases p <;> cases h

/-- The bytes that command `i` with operands `o` can change: an entry's part of a slot, a slot's first byte, the range of
the operands (41_log.md R145, R150, 42_raw_memory.md R203). -/
def MayChange (i : Instr) (o : Operands) (k : Nat) : Prop :=
  (i = .logAppend ∧ k < 2048 ∧ k % 64 < o.n + 3) ∨
  (i = .logErase ∧ k < 2048 ∧ k % 64 = 0) ∨
  (i = .memWrite ∧ k < 32768 ∧ o.a ≤ k ∧ k < o.a + o.n)

theorem mayChange_of_write {i : Instr} {o : Operands} {p q : Position} {a k : Nat} {v : List Byte}
    (h : planOf i o p = .write a v q) (hak : a ≤ k) (hka : k < a + v.length) : MayChange i o k := by
  rcases planOf_write_cases h with ⟨hi, t, rfl, rfl⟩ | ⟨rfl, hok, t, rfl, rfl⟩ | ⟨rfl, hok, rfl, rfl⟩
  · rw [slotBase_eq] at hak hka
    rw [List.length_singleton] at hka
    rcases hi with rfl | rfl
    · exact .inl ⟨rfl, by omega, by omega⟩
    · exact .inr (.inl ⟨rfl, by omega, by omega⟩)
  · obtain ⟨-, hn, -⟩ := (messageOK_iff o).1 hok
    rw [slotBase_eq] at hak hka
    rw [encodeEntry_length, Operands.data_length (by omega)] at hka
    exact .inl ⟨rfl, by omega, by omega⟩
  · obtain ⟨ha, -, hn, hblock⟩ := (rangeOK_iff _ _).1 hok
    rw [Operands.data_length hn] at hka
    exact .inr (.inr ⟨rfl, by omega, hak, hka⟩)

/-- Every write lies inside the memory (20_memory.md R61). -/
theorem Command.next_write_inside {c : Command} {a : Nat} {v : List Byte} {q : Position} (h : c.next = .write a v q) :
    a + v.length ≤ Config.memSize := by
  rw [Config.memSize]
  rcases planOf_write_cases h with ⟨-, t, rfl, rfl⟩ | ⟨-, hok, t, rfl, rfl⟩ | ⟨-, hok, rfl, rfl⟩
  · rw [slotBase_eq, List.length_singleton]
    omega
  · obtain ⟨-, hn, -⟩ := (messageOK_iff _).1 hok
    rw [slotBase_eq, encodeEntry_length, Operands.data_length (by omega)]
    omega
  · obtain ⟨ha, -, hn, hblock⟩ := (rangeOK_iff _ _).1 hok
    rw [Operands.data_length hn]
    omega

/-- Only a write changes a byte, and only one of its range; a failed one too. -/
theorem State.perform_mem_read_ne {s : State} {c : Command} {a : Action} {k : Nat}
    (h : (s.perform c a).mem.read k ≠ s.mem.read k) :
    ∃ b v q, a = .write b v q ∧ b ≤ k ∧ k < b + v.length := by
  cases a with
  | write b v q =>
    have hlen : (if s.failsAt 0 then tornBytes s.draws v.length else v).length = v.length := by split <;> simp
    refine ⟨b, v, q, rfl, ?_⟩
    by_contra hout
    exact h (Memory.read_writeBytes_other _ _ (by rw [hlen]; omega))
  | goto _ | read _ _ _ | complete _ => exact absurd rfl h

/-- `u` is reached from `s` in the middle of command `i`, or at its end: the operands are still those of `s`, and memory
differs only where the command can change it. -/
structure State.ChangedWithin (s : State) (i : Instr) (u : State) : Prop where
  ops : ∀ c, u.seq = .busy c → c.ops = s.regs.sample
  mem : ∀ k, u.mem.read k ≠ s.mem.read k → MayChange i s.regs.sample k

theorem State.ChangedWithin.perform {s u : State} {i : Instr} {c : Command} (h : s.ChangedWithin i u)
    (hu : u.seq = .busy c) : s.ChangedWithin i (u.settle.perform c (planOf i c.ops c.pos)) where
  ops d hd := (State.perform_seq_ops hd).trans (h.ops c hu)
  mem k hne := by
    by_cases hstep : (u.settle.perform c (planOf i c.ops c.pos)).mem.read k = u.settle.mem.read k
    · exact h.mem k (hstep ▸ hne)
    · obtain ⟨b, v, q, ha, hbk, hkb⟩ := State.perform_mem_read_ne hstep
      exact h.ops c hu ▸ mayChange_of_write ha hbk hkb

/-- The frame of a whole command in memory. -/
theorem exec_mem_read_ne {i : Instr} {s t : State} {k : Nat} (hs : s.seq = .idle) (ht : exec i s = .next t)
    (hk : t.mem.read k ≠ s.mem.read k) : MayChange i s.regs.sample k := by
  have hstart : s.ChangedWithin i (s.accept i) := ⟨fun c hc => by cases hc; rfl, fun k hne => absurd rfl hne⟩
  have hend := State.runPlan_induct (plan := planOf i) (fun u c hu hP => hP.perform hu) Config.maxSteps _ hstart
  rw [exec_idle i hs] at ht
  cases ht
  exact hend.mem k hk

end Sys2Proof.Machine
end

section
/-! One event of the script, and what single sequencer steps do with it. -/

namespace Sys2Proof.Machine

theorem step_eq_onInput {s : State} {e : Input} {rest : List Input} (h : s.inputs = e :: rest) :
    step s = { s with inputs := rest }.onInput e := by
  simp only [step, h]

/-- A step takes the next item of the script, or the machine goes on by itself. -/
theorem step_cases {s t : State} (h : step s = .next t) :
    t = s.onItsOwn ∨ ∃ e rest, { s with inputs := rest }.onInput e = .next t := by
  cases hs : s.inputs with
  | nil =>
    simp only [step, hs] at h
    cases h
    exact .inl rfl
  | cons e rest => exact .inr ⟨e, rest, step_eq_onInput hs ▸ h⟩

/-! ### Commands -/

theorem Command.next_complete {c : Command} {g : Staged} (h : c.pos = .complete g) : c.next = .complete g := by
  rw [Command.next, h, planOf_complete]

theorem State.finish_idle {s : State} (h : s.seq = .idle) : s.finish = s := by simp [State.finish, h]

theorem State.finish_busy {s : State} {c : Command} (h : s.seq = .busy c) :
    s.finish = s.runPlan (planOf c.instr) Config.maxSteps := by simp [State.finish, h]

/-! ### Host writes (10_state.md R36, R41) -/

theorem State.writeOperand_busy {s : State} {c : Command} (f : Regs → Regs) (h : s.seq = .busy c) :
    s.writeOperand f = s.dropWrite := by simp [State.writeOperand, s.isBusy_busy c h]

theorem State.writeOperand_idle {s : State} (f : Regs → Regs) (h : s.seq = .idle) :
    s.writeOperand f = { s with regs := f s.regs } := by simp [State.writeOperand, h]

theorem State.writeCmd_busy {s : State} {c : Command} (op : Byte) (h : s.seq = .busy c) :
    s.writeCmd op = s.dropWrite := by simp [State.writeCmd, s.isBusy_busy c h]

theorem State.writeCmd_idle {s : State} (op : Byte) (h : s.seq = .idle) :
    s.writeCmd op = s.accept (decodeByte op) := by simp [State.writeCmd, h]

/-! ### Single sequencer steps (10_state.md R43) -/

theorem State.advance_idle {s : State} (h : s.seq = .idle) : s.advance = s := by simp [State.advance, h]

/-- With the timer run down the sequencer may take any step. -/
theorem State.mayAdvance_of_twc_eq_zero {s : State} {c : Command} (h : s.seq = .busy c) (hw : s.twc = 0) :
    s.mayAdvance = true := by
  simp [State.mayAdvance, h, hw]

/-- A step that waits is taken only with the timer run down. -/
theorem State.mayAdvance_eq_false {s : State} {c : Command} (h : s.seq = .busy c) (hwaits : c.next.waits = true)
    (hw : s.twc ≠ 0) : s.mayAdvance = false := by
  simp [State.mayAdvance, h, hwaits, hw]

theorem State.advance_of_mayAdvance {s : State} {c : Command} (h : s.seq = .busy c) (hm : s.mayAdvance = true) :
    s.advance = s.perform c c.next := by
  simp [State.advance, h, hm]

theorem State.advance_of_not_mayAdvance {s : State} (hm : s.mayAdvance = false) : s.advance = s := by
  cases h : s.seq with
  | idle => exact State.advance_idle h
  | busy c => simp [State.advance, h, hm]

theorem State.advance_cases {s : State} {c : Command} (h : s.seq = .busy c) :
    s.advance = s.perform c c.next ∨ s.advance = s := by
  cases hm : s.mayAdvance with
  | true => exact .inl (State.advance_of_mayAdvance h hm)
  | false => exact .inr (State.advance_of_not_mayAdvance hm)

theorem Action.waits_of_transaction {a : Action} (h : a.transaction.isSome) : a.waits = true := by
  cases a with
  | goto _ | complete _ => cases h
  | read _ _ _ | write _ _ _ => rfl

theorem State.onItsOwn_cases (s : State) : s.onItsOwn = s.advance ∨ s.onItsOwn = s.tick := by
  unfold State.onItsOwn
  split
  · exact .inl rfl
  · exact .inr rfl

/-- Settles O8: an `exec` while a command runs is the dropped write. -/
theorem commandWhileBusyIsDropped : Obligations.CommandWhileBusyIsDropped := by
  unfold Obligations.CommandWhileBusyIsDropped
  intro i s c hs
  exact exec_busy i hs

/-- Settles O20: every transaction and every completion waits. -/
theorem timerHoldsBackTheSequencer : Obligations.TimerHoldsBackTheSequencer := by
  unfold Obligations.TimerHoldsBackTheSequencer
  refine ⟨fun s c rest hs htwc hin hnext => ?_, fun s rest hin => step_eq_onInput hin⟩
  have hwaits : c.next.waits = true := by
    rcases hnext with htr | ⟨g, hg⟩
    · exact Action.waits_of_transaction htr
    · rw [Command.next_complete hg]
      rfl
  have hstill : { s with inputs := rest }.advance = { s with inputs := rest } :=
    State.advance_of_not_mayAdvance (State.mayAdvance_eq_false hs hwaits (by simp only; omega))
  rw [step_eq_onInput hin, State.onInput, hstill]

/-- Settles O21: with the timer run down, the step at a complete position is the commit of its staged results. -/
theorem completionStep : Obligations.CompletionStep := by
  unfold Obligations.CompletionStep
  intro s c g rest hs hpos htwc hin
  have hadv : { s with inputs := rest }.advance = { s with inputs := rest }.complete g := by
    have hmay : { s with inputs := rest }.mayAdvance = true := State.mayAdvance_of_twc_eq_zero hs htwc
    rw [State.advance_of_mayAdvance (s := { s with inputs := rest }) hs hmay, Command.next_complete hpos]
    rfl
  rw [step_eq_onInput hin, State.onInput, hadv]
  rfl

end Sys2Proof.Machine
end

section
/-! The invariant (O58, O59): each operation keeps it, so each event of the script does. -/

namespace Sys2Proof.Machine

/-! ### States that differ little -/

/-- Time, the script, the draws and what the host has read play no part in the invariant but for the timer's bound. -/
theorem State.Inv.congr {s t : State} (h : s.Inv) (hregs : t.regs = s.regs) (hseq : t.seq = s.seq)
    (hmem : t.mem = s.mem) (htimer : t.twc ≤ t.tWc) : t.Inv where
  memory := hmem ▸ h.memory
  timer := htimer
  errFlag := hregs ▸ h.errFlag
  errorClears := hregs ▸ h.errorClears
  validOrFull := hregs ▸ h.validOrFull
  running := hregs ▸ hseq ▸ h.running
  staged := hseq ▸ h.staged

/-- OVERRUN plays no part in the invariant. -/
theorem State.Inv.setOverrun {s : State} (h : s.Inv) (b : Bool) :
    { s with regs := { s.regs with overrun := b } }.Inv :=
  ⟨h.memory, h.timer, h.errFlag, h.errorClears, h.validOrFull, h.running, h.staged⟩

/-- With no command running, the invariant speaks of memory, timer and the flags only. -/
theorem State.Inv.of_idle {s : State} (hidle : s.seq = .idle) (memory : s.mem.wf = true) (timer : s.twc ≤ s.tWc)
    (errFlag : s.regs.errf = decide (s.regs.err ≠ .none))
    (errorClears : s.regs.err ≠ .none → s.regs.valid = false ∧ s.regs.full = false)
    (validOrFull : ¬ (s.regs.valid = true ∧ s.regs.full = true)) : s.Inv where
  memory := memory
  timer := timer
  errFlag := errFlag
  errorClears := errorClears
  validOrFull := validOrFull
  running c hc := by rw [hidle] at hc; cases hc
  staged c g hc := by rw [hidle] at hc; cases hc

theorem State.Inv.settle {s : State} (h : s.Inv) : s.settle.Inv := h.congr rfl rfl rfl (Nat.zero_le _)

theorem State.Inv.tick {s : State} (h : s.Inv) : s.tick.Inv :=
  h.congr rfl rfl rfl (Nat.le_trans (Nat.sub_le _ _) h.timer)

/-! ### The host's accesses -/

theorem State.Inv.accept {s : State} (h : s.Inv) (i : Instr) : (s.accept i).Inv where
  memory := h.memory
  timer := h.timer
  errFlag := h.errFlag
  errorClears := h.errorClears
  validOrFull := h.validOrFull
  running c hc := by cases hc; exact ⟨rfl, rfl, rfl⟩
  staged c g hc hg := by cases hc; cases hg

theorem State.Inv.writeCmd {s : State} (h : s.Inv) (op : Byte) : (s.writeCmd op).Inv := by
  cases hs : s.seq with
  | busy c => rw [State.writeCmd_busy op hs]; exact h.setOverrun true
  | idle => rw [State.writeCmd_idle op hs]; exact h.accept _

/-- A write to an operand register: `f` keeps the flags. -/
theorem State.Inv.writeOperand {s : State} (h : s.Inv) {f : Regs → Regs} (herrf : (f s.regs).errf = s.regs.errf)
    (herr : (f s.regs).err = s.regs.err) (hvalid : (f s.regs).valid = s.regs.valid)
    (hfull : (f s.regs).full = s.regs.full) : (s.writeOperand f).Inv := by
  cases hs : s.seq with
  | busy c => rw [State.writeOperand_busy f hs]; exact h.setOverrun true
  | idle =>
    rw [State.writeOperand_idle f hs]
    refine .of_idle hs h.memory h.timer ?_ ?_ ?_
    · simpa only [herrf, herr] using h.errFlag
    · simpa only [herr, hvalid, hfull] using h.errorClears
    · simpa only [hvalid, hfull] using h.validOrFull

theorem State.Inv.hostWrite {s : State} (h : s.Inv) (off v : Byte) : (s.hostWrite off v).Inv := by
  unfold State.hostWrite
  cases registerAt off with
  | cmd => exact h.writeCmd v
  | status => exact h.setOverrun _
  | len | addrHi | addrLo | slot | buf j => exact h.writeOperand rfl rfl rfl rfl
  | err | cursor | crcHi | crcLo | rslt | faddrHi | faddrLo | reserved => exact h

/-! ### Sequencer steps -/

/-- The results that a command may stage set not both VALID and FULL (10_state.md R35). -/
theorem MayStage.not_valid_and_full {i : Instr} {g : Staged} (h : MayStage i g) :
    ¬ (g.valid = true ∧ g.full = true) := by
  rintro ⟨hv, hf⟩
  rcases h.valid hv with rfl | rfl <;> simpa using h.full hf

/-- A position with nothing staged fits every command. -/
theorem Position.fits_of_not_complete {p : Position} (i : Instr) (h : ∀ g, p ≠ .complete g) : p.Fits i := by
  cases p with
  | complete g => exact absurd rfl (h g)
  | check | scan _ | erase _ | entry _ _ | slot _ | raw => trivial

/-- A completion writes flags that agree, when the staged results do. -/
theorem State.Inv.complete {s : State} (h : s.Inv) {g : Staged} (hg : g.Consistent)
    (hvf : ¬ (g.valid = true ∧ g.full = true)) : (s.complete g).Inv := by
  refine State.Inv.of_idle rfl h.memory h.timer rfl (fun herr => ?_) hvf
  have hdiscard := hg.2 herr
  exact ⟨congrArg Staged.valid hdiscard, congrArg Staged.full hdiscard⟩

theorem State.perform_mem_wf {s : State} (h : s.mem.wf = true) (c : Command) (a : Action) :
    (s.perform c a).mem.wf = true := by
  cases a with
  | write b v q => exact Memory.writeBytes_wf h _ _
  | goto _ | read _ _ _ | complete _ => exact h

theorem State.perform_timer {s : State} (h : s.twc ≤ s.tWc) (c : Command) (a : Action) :
    (s.perform c a).twc ≤ (s.perform c a).tWc := by
  cases a with
  | write b v q => exact Nat.le_refl s.tWc
  | goto _ | read _ _ _ | complete _ => exact h

/-- A step that leaves the command running, at a position with nothing inconsistent staged. -/
theorem State.Inv.running_on {s t : State} {c : Command} {q : Position} (h : s.Inv) (hs : s.seq = .busy c)
    (hregs : t.regs = s.regs) (hseq : t.seq = .busy { c with pos := q }) (hq : q.Fits c.instr)
    (memory : t.mem.wf = true) (timer : t.twc ≤ t.tWc) : t.Inv where
  memory := memory
  timer := timer
  errFlag := hregs ▸ h.errFlag
  errorClears := hregs ▸ h.errorClears
  validOrFull := hregs ▸ h.validOrFull
  running d hd := by
    rw [hseq] at hd
    cases hd
    exact hregs ▸ h.running c hs
  staged d g hd hg := by
    rw [hseq] at hd
    cases hd
    obtain rfl : q = .complete g := hg
    exact ⟨MayStage.consistent hq, MayStage.not_valid_and_full hq⟩

theorem State.Inv.perform {s : State} {c : Command} (h : s.Inv) (hs : s.seq = .busy c) :
    (s.perform c c.next).Inv := by
  by_cases hpos : ∃ g, c.pos = .complete g
  · obtain ⟨g, hg⟩ := hpos
    obtain ⟨hcons, hvf⟩ := h.staged c g hs hg
    rw [Command.next_complete hg]
    exact h.complete hcons hvf
  · have hfits : c.next.Fits c.instr :=
      planOf_fits _ _ _ (Position.fits_of_not_complete _ fun g hg => hpos ⟨g, hg⟩)
    rcases s.perform_cases c c.next with ⟨g, hg⟩ | ⟨q, hleads, hseq, hregs⟩
    · rw [hg] at hfits ⊢
      exact h.complete (MayStage.consistent hfits) (MayStage.not_valid_and_full hfits)
    · exact h.running_on hs hregs hseq (hfits.leadsTo hleads) (State.perform_mem_wf h.memory c _)
        (State.perform_timer h.timer c _)

theorem State.Inv.advance {s : State} (h : s.Inv) : s.advance.Inv := by
  cases hs : s.seq with
  | idle => rwa [State.advance_idle hs]
  | busy c =>
    rcases State.advance_cases hs with hadv | hadv <;> rw [hadv]
    · exact h.perform hs
    · exact h

/-- The invariant with the command that runs named: it stays the same until its completion. -/
structure State.InvRunning (i : Instr) (s : State) : Prop where
  inv : s.Inv
  instr : ∀ c, s.seq = .busy c → c.instr = i

theorem State.InvRunning.perform {i : Instr} {s : State} {c : Command} (h : s.InvRunning i) (hs : s.seq = .busy c) :
    (s.settle.perform c (planOf i c.ops c.pos)).InvRunning i := by
  obtain rfl := h.instr c hs
  exact ⟨h.inv.settle.perform hs, fun d hd => State.perform_seq_instr hd⟩

theorem State.InvRunning.runPlan {i : Instr} {s : State} (h : s.InvRunning i) (k : Nat) :
    (s.runPlan (planOf i) k).Inv :=
  (State.runPlan_induct (fun _ _ hc hP => hP.perform hc) k s h).inv

theorem State.Inv.finish {s : State} (h : s.Inv) : s.finish.Inv := by
  cases hs : s.seq with
  | idle => rwa [State.finish_idle hs]
  | busy c =>
    rw [State.finish_busy hs]
    exact State.InvRunning.runPlan ⟨h, fun d hd => by rw [hs] at hd; cases hd; rfl⟩ _

theorem State.Inv.exec {s t : State} {i : Instr} (h : s.Inv) (ht : exec i s = .next t) : t.Inv := by
  cases hs : s.seq with
  | idle =>
    rw [exec_idle i hs] at ht
    cases ht
    exact State.InvRunning.runPlan ⟨h.accept i, fun c hc => by cases hc; rfl⟩ _
  | busy c =>
    rw [exec_busy i hs] at ht
    cases ht
    exact h.setOverrun true

/-! ### Reset -/

theorem State.afterReset_inv {s : State} (h : s.mem.wf = true) : s.afterReset.Inv :=
  .of_idle rfl h (Nat.le_refl s.tWc) rfl (fun herr => absurd rfl herr) (fun h => Bool.false_ne_true h.1)

theorem State.cutTransaction_mem_wf {s : State} (h : s.mem.wf = true) : s.cutTransaction.mem.wf = true := by
  unfold State.cutTransaction
  split
  · exact h
  · split
    · exact Memory.writeBytes_wf h _ _
    · exact h

/-! ### Every step -/

theorem State.Inv.onItsOwn {s : State} (h : s.Inv) : s.onItsOwn.Inv := by
  rcases s.onItsOwn_cases with hs | hs <;> rw [hs]
  · exact h.advance
  · exact h.tick

theorem State.Inv.onInput {s t : State} {e : Input} (h : s.Inv) (ht : s.onInput e = .next t) : t.Inv := by
  cases e with
  | read off => cases ht; exact h.congr rfl rfl rfl h.timer
  | write off v => cases ht; exact h.hostWrite off v
  | run op => exact h.exec ht
  | finish => cases ht; exact h.finish
  | advance => cases ht; exact h.advance
  | tick => cases ht; exact h.tick
  | reset cutting =>
    cases cutting with
    | false => cases ht; exact State.afterReset_inv h.memory
    | true => cases ht; exact State.afterReset_inv (State.cutTransaction_mem_wf h.memory)

/-- Settles O59, one event of the script at a time. -/
theorem stepKeepsTheInvariant : Obligations.StepKeepsTheInvariant := by
  unfold Obligations.StepKeepsTheInvariant
  intro s t h ht
  rcases step_cases ht with rfl | ⟨e, rest, he⟩
  · exact h.onItsOwn
  · have hrest : { s with inputs := rest }.Inv := h.congr rfl rfl rfl h.timer
    exact hrest.onInput he

/-- Settles O58: the state of reset is a state after a reset. -/
theorem resetStateHasTheInvariant : Obligations.ResetStateHasTheInvariant :=
  State.afterReset_inv (s := .reset) (by decide)

end Sys2Proof.Machine
end

section
/-! The host's window: what stands at each offset, and what a read and a write of it do (10_state.md R20 to R37). -/

namespace Sys2Proof.Machine

/-! ### The register map (10_state.md R21) -/

/-- Past the 13 registers an offset is a byte of BUF or reserved. -/
theorem registerAt_past_registers {off : Byte} (h : 0x0D ≤ off.toNat) :
    registerAt off =
      if h : 0x40 ≤ off.toNat ∧ off.toNat - 0x40 < 64 then .buf ⟨off.toNat - 0x40, h.2⟩ else .reserved := by
  unfold registerAt
  generalize off.toNat = n at h ⊢
  obtain ⟨k, rfl⟩ := Nat.exists_eq_add_of_le' h
  rfl

theorem registerAt_buf {off : Byte} (j : Fin 64) (h : off.toNat = 0x40 + j.val) : registerAt off = .buf j := by
  rw [registerAt_past_registers (by omega), dif_pos (by omega)]
  congr 1
  ext
  simp only
  omega

theorem registerAt_reserved {off : Byte} (h : (0x0D ≤ off.toNat ∧ off.toNat ≤ 0x3F) ∨ 0x80 ≤ off.toNat) :
    registerAt off = .reserved := by
  rw [registerAt_past_registers (by omega), dif_neg (by omega)]

/-! ### STATUS (10_state.md R23) -/

/-- The STATUS byte is its eight flags, bit 7 reading 0. -/
theorem statusByte_getLsbD (r : Regs) (busy : Bool) (k : Nat) :
    (statusByte r busy).getLsbD k =
      [busy, r.done, r.valid, r.ended, r.full, r.errf, r.overrun, false].getD k false := by
  unfold statusByte
  change BitVec.getLsbD (w := 1 + 1 + 1 + 1 + 1 + 1 + 1 + 1) _ k = _
  match k with
  | 0 | 1 | 2 | 3 | 4 | 5 | 6 | 7 => simp only [BitVec.getLsbD_append]; simp
  | k + 8 => rw [BitVec.getLsbD_of_ge _ _ (by omega)]; rfl

theorem State.isBusy_iff (s : State) : s.isBusy = true ↔ s.seq ≠ .idle := by
  cases h : s.seq with
  | idle => simp [h]
  | busy c => simp [s.isBusy_busy c h]

/-- Settles O13, bit by bit of the appended flags. -/
theorem statusByteBits : Obligations.StatusByteBits := by
  unfold Obligations.StatusByteBits
  intro s
  have hbit := statusByte_getLsbD s.regs s.isBusy
  exact ⟨hbit 0, s.isBusy_iff, hbit 1, hbit 2, hbit 3, hbit 4, hbit 5, hbit 6, hbit 7⟩

/-! ### Reads -/

theorem SlotCount.toNat_ofNat (k : SlotCount) : (BitVec.ofNat 8 k.val).toNat = k.val := by
  rw [BitVec.toNat_ofNat]
  omega

theorem State.valueOf_registerAt_buf (s : State) {off : Byte} (j : Fin 64) (h : off.toNat = 0x40 + j.val) :
    s.valueOf (registerAt off) = s.regs.buf[j] := by
  rw [registerAt_buf j h]
  rfl

theorem State.valueOf_registerAt_reserved (s : State) {off : Byte}
    (h : (0x0D ≤ off.toNat ∧ off.toNat ≤ 0x3F) ∨ 0x80 ≤ off.toNat) : s.valueOf (registerAt off) = 0x00 := by
  rw [registerAt_reserved h]
  rfl

/-- Settles O12: the byte read is the value of the register at the offset. -/
theorem windowReads : Obligations.WindowReads := by
  unfold Obligations.WindowReads
  intro s off rest hin
  refine ⟨s.valueOf (registerAt off), step_eq_onInput hin, ?_⟩
  refine ⟨?cmd, ?status, ?err, ?len, ?addrHi, ?addrLo, ?slot, ?cursor, ?crcHi, ?crcLo, ?rslt, ?faddrHi, ?faddrLo,
    fun j => s.valueOf_registerAt_buf j, s.valueOf_registerAt_reserved⟩
  case cmd | status | err | len | addrHi | addrLo | slot => rintro rfl; rfl
  case cursor => rintro rfl; exact SlotCount.toNat_ofNat s.regs.cursor
  case crcHi => rintro rfl; exact hiByte_toNat s.regs.crc
  case crcLo => rintro rfl; exact loByte_toNat s.regs.crc
  case rslt => rintro rfl; exact SlotCount.toNat_ofNat s.regs.rslt
  case faddrHi => rintro rfl; exact hiByte_toNat s.regs.faddr
  case faddrLo => rintro rfl; exact loByte_toNat s.regs.faddr

/-- After reset every register reads 0 (95_test_vectors.md V85). -/
theorem State.reset_valueOf (r : Register) : State.reset.valueOf r = 0x00 := by
  cases r with
  | buf j => exact Vector.getElem_replicate _
  | cmd | status | err | len | addrHi | addrLo | slot => rfl
  | cursor | crcHi | crcLo | rslt | faddrHi | faddrLo | reserved => rfl

/-- Settles O9: the window by registers, the rest by the fields of `State.reset`. -/
theorem resetStateValues : Obligations.ResetStateValues := by
  unfold Obligations.ResetStateValues
  exact ⟨fun off => State.reset_valueOf _, rfl, rfl, rfl, fun a => rfl⟩

/-! ### Writes -/

theorem State.hostWrite_cmd (s : State) (v : Byte) : s.hostWrite 0x00 v = s.writeCmd v := rfl

theorem State.hostWrite_len (s : State) (v : Byte) :
    s.hostWrite 0x03 v = s.writeOperand fun r => { r with len := v } := rfl

theorem State.hostWrite_addrHi (s : State) (v : Byte) :
    s.hostWrite 0x04 v = s.writeOperand fun r => { r with addrHi := v } := rfl

theorem State.hostWrite_addrLo (s : State) (v : Byte) :
    s.hostWrite 0x05 v = s.writeOperand fun r => { r with addrLo := v } := rfl

theorem State.hostWrite_slot (s : State) (v : Byte) :
    s.hostWrite 0x06 v = s.writeOperand fun r => { r with slot := v } := rfl

theorem State.hostWrite_buf (s : State) {off : Byte} (v : Byte) {j : Fin 64} (h : off.toNat = 0x40 + j.val) :
    s.hostWrite off v = s.writeOperand fun r => { r with buf := r.buf.set j v } := by
  rw [State.hostWrite, registerAt_buf j h]

theorem State.hostWrite_reserved (s : State) {off : Byte} (v : Byte)
    (h : (0x0D ≤ off.toNat ∧ off.toNat ≤ 0x3F) ∨ 0x80 ≤ off.toNat) : s.hostWrite off v = s := by
  rw [State.hostWrite, registerAt_reserved h]

/-- The read-only registers beside ERR, by their offsets. -/
theorem State.hostWrite_results (s : State) {off : Byte} (v : Byte) (h : 0x07 ≤ off.toNat ∧ off.toNat ≤ 0x0C) :
    s.hostWrite off v = s := by
  have hoff : off = 0x07 ∨ off = 0x08 ∨ off = 0x09 ∨ off = 0x0A ∨ off = 0x0B ∨ off = 0x0C := by bv_omega
  rcases hoff with rfl | rfl | rfl | rfl | rfl | rfl <;> rfl

/-- The operand registers and BUF, by their offsets. -/
theorem State.exists_hostWrite_eq_writeOperand (s : State) {off : Byte} (v : Byte)
    (h : (0x03 ≤ off.toNat ∧ off.toNat ≤ 0x06) ∨ (0x40 ≤ off.toNat ∧ off.toNat ≤ 0x7F)) :
    ∃ f, s.hostWrite off v = s.writeOperand f := by
  rcases h with h | ⟨hlo, hhi⟩
  · have hoff : off = 0x03 ∨ off = 0x04 ∨ off = 0x05 ∨ off = 0x06 := by bv_omega
    rcases hoff with rfl | rfl | rfl | rfl
    · exact ⟨_, s.hostWrite_len v⟩
    · exact ⟨_, s.hostWrite_addrHi v⟩
    · exact ⟨_, s.hostWrite_addrLo v⟩
    · exact ⟨_, s.hostWrite_slot v⟩
  · exact ⟨_, s.hostWrite_buf v (j := ⟨off.toNat - 0x40, by omega⟩) (by simp only; omega)⟩

/-- The registers that a running command protects (10_state.md R36). -/
theorem State.hostWrite_busy {s : State} {c : Command} {off : Byte} (v : Byte) (hs : s.seq = .busy c)
    (hoff : off = 0x00 ∨ (0x03 ≤ off.toNat ∧ off.toNat ≤ 0x06) ∨ (0x40 ≤ off.toNat ∧ off.toNat ≤ 0x7F)) :
    s.hostWrite off v = s.dropWrite := by
  rcases hoff with rfl | hoff
  · rw [State.hostWrite_cmd, State.writeCmd_busy v hs]
  · obtain ⟨f, hf⟩ := s.exists_hostWrite_eq_writeOperand v hoff
    rw [hf, State.writeOperand_busy f hs]

/-- Settles O15: the write to a protected offset is the dropped one. -/
theorem writesWhileBusyAreDropped : Obligations.WritesWhileBusyAreDropped := by
  unfold Obligations.WritesWhileBusyAreDropped
  intro s c off v rest hs hin hoff
  have hdrop := State.hostWrite_busy (s := { s with inputs := rest }) v hs hoff
  rw [step_eq_onInput hin, State.onInput, hdrop]
  rfl

/-- Settles O16: while no command runs, a write to an operand register is the update of its field. -/
theorem operandWritesAreStored : Obligations.OperandWritesAreStored := by
  unfold Obligations.OperandWritesAreStored
  intro s off v rest hs hin
  have hstore (f : Regs → Regs) := State.writeOperand_idle (s := { s with inputs := rest }) f hs
  rw [step_eq_onInput hin, State.onInput]
  refine ⟨?len, ?addrHi, ?addrLo, ?slot, fun j hj => ?buf⟩
  case len => rintro rfl; rw [State.hostWrite_len, hstore]
  case addrHi => rintro rfl; rw [State.hostWrite_addrHi, hstore]
  case addrLo => rintro rfl; rw [State.hostWrite_addrLo, hstore]
  case slot => rintro rfl; rw [State.hostWrite_slot, hstore]
  case buf => rw [State.hostWrite_buf _ v hj, hstore]

/-- Settles O17: a 1 in bit 6 clears OVERRUN, a 0 keeps it. -/
theorem statusWriteClearsOverrunOnly : Obligations.StatusWriteClearsOverrunOnly := by
  unfold Obligations.StatusWriteClearsOverrunOnly
  intro s v rest hin
  have hoverrun : (s.regs.overrun && !v.getLsbD 6) = if v.getLsbD 6 then false else s.regs.overrun := by
    cases v.getLsbD 6 <;> simp
  rw [step_eq_onInput hin, ← hoverrun]
  rfl

/-- Settles O18: the reads by the register map, the writes by the three groups of read-only and reserved offsets. -/
theorem reservedAndReadOnlyOffsets : Obligations.ReservedAndReadOnlyOffsets := by
  unfold Obligations.ReservedAndReadOnlyOffsets
  intro s off v rest
  refine ⟨s.valueOf_registerAt_reserved, statusByte_getLsbD _ _ 7, fun hin => ⟨fun hoff => ?_, ?_⟩⟩
  · rw [step_eq_onInput hin, State.onInput]
    rcases hoff with rfl | ⟨hlo, hhi⟩ | hhigh
    · rfl
    · rcases Nat.lt_or_ge off.toNat 0x0D with hlt | hge
      · rw [State.hostWrite_results _ v ⟨hlo, by omega⟩]
      · rw [State.hostWrite_reserved _ v (.inl ⟨hge, hhi⟩)]
    · rw [State.hostWrite_reserved _ v (.inr hhigh)]
  · rintro rfl hbit
    rw [statusWriteClearsOverrunOnly s v rest hin, hbit]
    rfl

/-- Writing to CMD the opcode of a decoded byte: CMD reads back the byte written (10_state.md R22). -/
theorem decodeByte_opcode (op : Byte) : (decodeByte op).opcode = op := by
  unfold decodeByte
  split
  all_goals
    apply BitVec.eq_of_toNat_eq
    simp_all [Instr.opcode]

/-- Settles O19: the acceptance, CMD reading back the byte. -/
theorem acceptanceStep : Obligations.AcceptanceStep := by
  unfold Obligations.AcceptanceStep
  intro s op rest hs hin
  have haccept := State.writeCmd_idle (s := { s with inputs := rest }) op hs
  rw [step_eq_onInput hin, State.onInput, State.hostWrite_cmd, haccept, State.accept, decodeByte_opcode]
  rfl

end Sys2Proof.Machine
end

section
/-! Reset, and what whole commands and single steps leave unchanged (O10, O48, O49, O50, O53). -/

namespace Sys2Proof.Machine

/-! ### Reset (70_reset_and_hazards.md R260 to R262) -/

/-- A cut write leaves its range unspecified when the timer had let it begin. -/
theorem State.cutTransaction_read_of_write {s : State} {c : Command} {a : Nat} {v : List Byte} {q : Position}
    (hs : s.seq = .busy c) (hnext : c.next = .write a v q) (k : Nat) :
    s.cutTransaction.mem.read k =
      if s.twc = 0 ∧ a ≤ k ∧ k < a + v.length then Config.tornByte s.draws (k - a) else s.mem.read k := by
  have hinside : a + (tornBytes s.draws v.length).length ≤ Config.memSize := by
    rw [tornBytes_length]
    exact Command.next_write_inside hnext
  by_cases hw : s.twc = 0
  · have hmay := State.mayAdvance_of_twc_eq_zero hs hw
    simp only [State.cutTransaction, hs, hnext, hmay, Memory.read_writeBytes _ _ k hinside, tornBytes_length, hw,
      true_and]
    split
    next hk => exact tornBytes_getD (by omega) _
    next => rfl
  · have hmay := State.mayAdvance_eq_false hs (by rw [hnext]; rfl) hw
    simp only [State.cutTransaction, hs, hnext, hmay, hw, false_and, if_false]

/-- With no write under way a cut changes nothing. -/
theorem State.cutTransaction_of_not_write {s : State}
    (h : ∀ c a v q, s.seq = .busy c → c.next ≠ .write a v q) : s.cutTransaction = s := by
  unfold State.cutTransaction
  split
  next => rfl
  next c hs =>
    split
    next a v q hnext _ => exact absurd hnext (h c a v q hs)
    next => rfl

theorem State.cutTransaction_tWc (s : State) : s.cutTransaction.tWc = s.tWc := by
  unfold State.cutTransaction
  split
  · rfl
  · split <;> rfl

/-- A cut does not look at the script. -/
theorem State.cutTransaction_withInputs (s : State) (es : List Input) :
    { s with inputs := es }.cutTransaction = { s.cutTransaction with inputs := es } := by
  have hmay : { s with inputs := es }.mayAdvance = s.mayAdvance := rfl
  simp only [State.cutTransaction, hmay]
  split
  · rfl
  · split <;> rfl

/-- Settles O10: the registers are those of reset; memory is that of the cut transaction. -/
theorem resetKeepsMemoryAndClearsRegisters : Obligations.ResetKeepsMemoryAndClearsRegisters := by
  unfold Obligations.ResetKeepsMemoryAndClearsRegisters
  intro s cutting rest hin
  cases cutting with
  | false =>
    refine ⟨_, step_eq_onInput hin, rfl, rfl, rfl, rfl, fun k => ?_⟩
    cases s.seq <;> rfl
  | true =>
    have hstep := step_eq_onInput hin
    rw [State.onInput, State.cutTransaction_withInputs] at hstep
    refine ⟨_, hstep, rfl, s.cutTransaction_tWc, s.cutTransaction_tWc, rfl, fun k => ?_⟩
    rw [State.afterReset_mem]
    cases hs : s.seq with
    | idle => rw [State.cutTransaction_of_not_write fun c a v q hc => by rw [hs] at hc; cases hc]
    | busy c =>
      cases hnext : c.next with
      | write a v q => simpa only [hnext] using State.cutTransaction_read_of_write hs hnext k
      | goto _ | read _ _ _ | complete _ =>
        rw [State.cutTransaction_of_not_write fun d a v q hd => by rw [hs] at hd; cases hd; simp [hnext]]
        simp only [hnext]

/-! ### What a whole command changes -/

/-- Settles O48: the staged results are those the command can stage. -/
theorem resultRegistersChangeOnlyByTheirCommands : Obligations.ResultRegistersChangeOnlyByTheirCommands := by
  unfold Obligations.ResultRegistersChangeOnlyByTheirCommands
  intro i s t hs ht
  obtain ⟨n, g, m, hg, rfl⟩ := exec_idle_outcome hs ht
  have hstaged {α : Type} {o : Option α} {x : α} (hne : o.getD x ≠ x) : o ≠ .none := fun h => hne (by rw [h]; rfl)
  exact ⟨fun h => hg.crc (hstaged h), fun h => hg.rslt (hstaged h), fun h => hg.faddr (hstaged h),
    fun h => hg.cursor (hstaged h), fun h => hg.ended (hstaged h), fun h => hg.len (hstaged h),
    fun h => hg.buf (hstaged h), hg.valid, hg.full⟩

/-- Settles O49: a completion names none of the kept registers, and memory has the frame of the command's writes. -/
theorem commandsKeepEverythingElse : Obligations.CommandsKeepEverythingElse := by
  unfold Obligations.CommandsKeepEverythingElse
  intro i s t hs ht
  have hmem (a : Nat) := exec_mem_read_ne (k := a) hs ht
  obtain ⟨n, g, m, -, rfl⟩ := exec_idle_outcome hs ht
  exact ⟨rfl, rfl, rfl, rfl, rfl, rfl, hmem⟩

/-! ### An append looks at memory and the message only -/

/-- What is known of LOG_APPEND's position: success stages the slot and the CRC (41_log.md R150). -/
def Position.AppendStages : Position → Prop
  | .complete g => g.err = .none → g.rslt ≠ .none ∧ g.crc ≠ .none
  | .check | .scan _ | .erase _ | .entry _ _ | .slot _ | .raw => True

theorem raise_appendStages {e : ErrorCode} (a : Option Nat) (he : e ≠ .none) : (raise e a).AppendStages :=
  fun h => absurd h he

theorem planLogAppend_appendStages (o : Operands) (p q : Position) (hp : p.AppendStages)
    (hq : (planLogAppend o p).LeadsTo q) : q.AppendStages := by
  have hio (a : Nat) : (raise .ioError (some a)).AppendStages := raise_appendStages _ (by simp)
  have hinvalid : (raise .invalidEntry).AppendStages := raise_appendStages _ (by simp)
  cases p with
  | complete g => obtain rfl := hq; exact hp
  | scan i =>
    obtain rfl | ⟨bs, rfl⟩ := hq
    · exact hio _
    · dsimp only
      split
      · trivial
      · split <;> trivial
  | erase i =>
    obtain rfl | rfl := hq
    · exact hio _
    · split <;> trivial
  | entry t wrapped =>
    simp only [planLogAppend] at hq
    split at hq
    · obtain rfl | rfl := hq
      · exact hio _
      · exact fun _ => ⟨by simp, by simp⟩
    · obtain rfl := hq; exact hinvalid
  | check | slot _ | raw =>
    obtain rfl := hq
    split
    · trivial
    · exact hinvalid

/-- LOG_APPEND's pseudocode looks at LEN and the message alone. -/
theorem planLogAppend_congr {o o' : Operands} (hn : o'.n = o.n) (hdata : o'.data = o.data) :
    planLogAppend o' = planLogAppend o := by
  have hok : messageOK o' = messageOK o := by rw [messageOK, messageOK, hn, hdata]
  funext p
  cases p with
  | entry t wrapped => simp only [planLogAppend, hok, hdata]
  | check | slot _ | raw => simp only [planLogAppend, hok]
  | complete _ | scan _ | erase _ => rfl

/-- Settles O53: the two machines run the command in lockstep. -/
theorem appendDependsOnMemoryAndMessageOnly : Obligations.AppendDependsOnMemoryAndMessageOnly := by
  unfold Obligations.AppendDependsOnMemoryAndMessageOnly
  intro s s' t hs hs' hmem hlen hbuf hans hdraws ht
  have hn : s'.regs.sample.n = s.regs.sample.n := congrArg BitVec.toNat hlen
  have hdata : s'.regs.sample.data = s.regs.sample.data := by
    rw [Operands.data, hn]
    exact hbuf
  obtain ⟨n, g, m, hg, hrun, hrun'⟩ := exec_lockstep (i := .logAppend) hs hs' hmem hans hdraws
    (planLogAppend_congr hn hdata) (Q := Position.AppendStages) trivial (planLogAppend_appendStages s.regs.sample)
  rw [ht] at hrun
  cases hrun
  refine ⟨_, hrun', rfl, rfl, rfl, fun herr => ?_⟩
  obtain ⟨hrslt, hcrc⟩ := hg herr
  obtain ⟨x, hx⟩ := Option.ne_none_iff_exists'.1 hrslt
  obtain ⟨y, hy⟩ := Option.ne_none_iff_exists'.1 hcrc
  simp [hx, hy]

/-! ### While a command runs (10_state.md R37) -/

/-- The registers of `u` are still `r`, OVERRUN aside, unless the command is over. -/
def State.KeepsRegs (r : Regs) (u : State) : Prop := u.seq = .idle ∨ u.regs = { r with overrun := u.regs.overrun }

/-- Of the sequencer's steps only a completion writes registers (10_state.md R42). -/
theorem State.KeepsRegs.perform {r : Regs} {u : State} {c : Command} (h : u.KeepsRegs r) (hu : u.seq = .busy c)
    (a : Action) : (u.perform c a).KeepsRegs r := by
  have hregs : u.regs = { r with overrun := u.regs.overrun } := h.resolve_left (by simp [hu])
  cases a with
  | complete g => exact .inl rfl
  | goto _ | read _ _ _ | write _ _ _ => exact .inr hregs

theorem State.keepsRegs_advance (s : State) {c : Command} (hs : s.seq = .busy c) : s.advance.KeepsRegs s.regs := by
  rcases State.advance_cases hs with hadv | hadv <;> rw [hadv]
  · exact State.KeepsRegs.perform (.inr rfl) hs _
  · exact .inr rfl

theorem State.keepsRegs_finish (s : State) {c : Command} (hs : s.seq = .busy c) : s.finish.KeepsRegs s.regs := by
  rw [State.finish_busy hs]
  exact State.runPlan_induct (P := State.KeepsRegs s.regs)
    (fun u _ hu hkeep => State.KeepsRegs.perform (u := u.settle) hkeep hu _) _ s (.inr rfl)

/-- A host write while a command runs changes OVERRUN alone (10_state.md R23, R33, R36). -/
theorem State.keepsRegs_hostWrite (s : State) {c : Command} (hs : s.seq = .busy c) (off v : Byte) :
    (s.hostWrite off v).KeepsRegs s.regs := by
  have hoperand (f : Regs → Regs) : (s.writeOperand f).KeepsRegs s.regs := by
    rw [State.writeOperand_busy f hs]
    exact .inr rfl
  unfold State.hostWrite
  cases registerAt off with
  | cmd => dsimp only; rw [State.writeCmd_busy v hs]; exact .inr rfl
  | len | addrHi | addrLo | slot | buf j => exact hoperand _
  | status | err | cursor | crcHi | crcLo | rslt | faddrHi | faddrLo | reserved => exact .inr rfl

theorem State.keepsRegs_onInput {s t : State} {c : Command} {e : Input} (hs : s.seq = .busy c)
    (ht : s.onInput e = .next t) : t.KeepsRegs s.regs := by
  cases e with
  | read off => cases ht; exact .inr rfl
  | write off v => cases ht; exact s.keepsRegs_hostWrite hs off v
  | run op =>
    rw [State.onInput, exec_busy _ hs] at ht
    cases ht
    exact .inr rfl
  | finish => cases ht; exact s.keepsRegs_finish hs
  | advance => cases ht; exact s.keepsRegs_advance hs
  | tick => cases ht; exact .inr rfl
  | reset cutting => cases cutting <;> cases ht <;> exact .inl rfl

/-- Settles O50: a step that leaves a command running keeps the registers, as no completion was made. -/
theorem registersStandStillWhileBusy : Obligations.RegistersStandStillWhileBusy := by
  unfold Obligations.RegistersStandStillWhileBusy
  intro s t c c' hs ht hbusy
  have hkeep : t.KeepsRegs s.regs := by
    rcases step_cases ht with rfl | ⟨e, rest, he⟩
    · rcases s.onItsOwn_cases with hown | hown <;> rw [hown]
      · exact s.keepsRegs_advance hs
      · exact .inr rfl
    · exact State.keepsRegs_onInput (s := { s with inputs := rest }) hs he
  exact hkeep.resolve_left (by simp [hbusy])

end Sys2Proof.Machine
end

section
/-! Single transactions of the memory port: what one does, and where it may lie (20_memory.md R61 to R69; O22 to O25). -/

namespace Sys2Proof.Machine

/-! ### What a transaction does (20_memory.md R65 to R67) -/

/-- With the timer run down, a sequencer step performs the next action of the running command. -/
theorem step_advance {s : State} {c : Command} {rest : List Input} (hs : s.seq = .busy c) (htwc : s.twc = 0)
    (hin : s.inputs = .advance :: rest) : step s = .next ({ s with inputs := rest }.perform c c.next) := by
  have hmay : { s with inputs := rest }.mayAdvance = true := State.mayAdvance_of_twc_eq_zero hs htwc
  rw [step_eq_onInput hin, State.onInput, State.advance_of_mayAdvance (s := { s with inputs := rest }) hs hmay]

theorem step_read {s : State} {c : Command} {a n : Nat} {k : List Byte → Position} {rest : List Input}
    (hs : s.seq = .busy c) (hnext : c.next = .read a n k) (htwc : s.twc = 0) (hin : s.inputs = .advance :: rest) :
    step s = .next { s with
      inputs := rest
      answers := s.answers.tail
      draws := s.draws + 1
      seq := .busy { c with pos := if s.failsAt 0 then raise .ioError a else k (s.mem.readBytes a n) } } := by
  rw [step_advance hs htwc hin, hnext]
  rfl

theorem step_write {s : State} {c : Command} {a : Nat} {v : List Byte} {p : Position} {rest : List Input}
    (hs : s.seq = .busy c) (hnext : c.next = .write a v p) (htwc : s.twc = 0) (hin : s.inputs = .advance :: rest) :
    step s = .next ({ s with inputs := rest }.writeTransaction c a v p) := by
  rw [step_advance hs htwc hin, hnext]
  rfl

/-- Inside the range written, memory reads back what was written. -/
theorem Memory.read_writeBytes_inside (m : Memory) {a j : Nat} {v : List Byte} (ha : a + v.length ≤ Config.memSize)
    (h : j < v.length) : (m.writeBytes a v).read (a + j) = v[j] := by
  rw [Memory.read_writeBytes m v (a + j) ha, if_pos (by omega), Nat.add_sub_cancel_left, List.getD_eq_getElem _ _ h]

/-- Settles O22: a read that does not fail goes on with the bytes read. -/
theorem readTransactionReturnsMemory : Obligations.ReadTransactionReturnsMemory := by
  unfold Obligations.ReadTransactionReturnsMemory
  intro s c a n k rest hs hnext htwc hin hok
  rw [step_read hs hnext htwc hin, hok]
  rfl

/-- Settles O23: the bytes of a write that does not fail lie inside the memory, so each is read back. -/
theorem writeTransactionStoresItsBytes : Obligations.WriteTransactionStoresItsBytes := by
  unfold Obligations.WriteTransactionStoresItsBytes
  intro s c a v p rest hs hnext htwc hin hok
  have hok' : { s with inputs := rest }.failsAt 0 = false := hok
  refine ⟨_, step_write hs hnext htwc hin, ?_, rfl, rfl, rfl, rfl, rfl, rfl, rfl, fun j hj => ?_, fun k hk => ?_⟩
  · simp [hok']
  · simpa [hok'] using Memory.read_writeBytes_inside s.mem (Command.next_write_inside hnext) hj
  · simpa [hok'] using Memory.read_writeBytes_other s.mem v hk

/-- Settles O24: a failure is the raised error; a failed write stores the unspecified bytes in place of its own. -/
theorem failedTransactionEffects : Obligations.FailedTransactionEffects := by
  unfold Obligations.FailedTransactionEffects
  intro s c rest hs htwc hin hfail
  refine ⟨fun a n k hnext => ?_, fun a v p hnext => ?_⟩
  · rw [step_read hs hnext htwc hin, hfail]
    rfl
  · have hfail' : { s with inputs := rest }.failsAt 0 = true := hfail
    have hlen : (tornBytes s.draws v.length).length = v.length := tornBytes_length _ _
    have hinside : a + (tornBytes s.draws v.length).length ≤ Config.memSize :=
      hlen.symm ▸ Command.next_write_inside hnext
    refine ⟨_, step_write hs hnext htwc hin, rfl, rfl, rfl, rfl, rfl, rfl, ?_, fun j hj => ?_, fun k hk => ?_⟩
    · simp [hfail', raise]
    · have hread := Memory.read_writeBytes_inside s.mem hinside (hlen.symm ▸ hj)
      simpa [hfail', tornBytes] using hread
    · simpa [hfail'] using Memory.read_writeBytes_other s.mem (tornBytes s.draws v.length) (hlen.symm ▸ hk)

/-! ### Where a transaction may lie (20_memory.md R61, R63, R69, 41_log.md R141) -/

/-- The reads of the plans: the first byte or the whole of a slot, and the range of MEM_READ. -/
theorem planOf_read_cases {i : Instr} {o : Operands} {p : Position} {a n : Nat} {k : List Byte → Position}
    (h : planOf i o p = .read a n k) :
    (∃ t : SlotIndex, a = slotBase t ∧ (n = 1 ∨ n = 64)) ∨
    (i = .memRead ∧ rangeOK o.a o.n = true ∧ a = o.a ∧ n = o.n) := by
  cases i with
  | logAppend =>
    cases p with
    | scan t => cases h; exact .inl ⟨t, rfl, .inl rfl⟩
    | entry _ _ => simp only [planOf, planLogAppend] at h; split at h <;> cases h
    | check | erase _ | slot _ | raw | complete _ => cases h
  | logFindFree =>
    cases p with
    | scan t => cases h; exact .inl ⟨t, rfl, .inl rfl⟩
    | check | erase _ | entry _ _ | slot _ | raw | complete _ => cases h
  | logReadNext | logCheckSlot =>
    cases p with
    | slot t => cases h; exact .inl ⟨t, rfl, .inr rfl⟩
    | check | scan _ | erase _ | entry _ _ | raw | complete _ => cases h
  | memRead =>
    cases p with
    | raw =>
      simp only [planOf, planMemRead] at h
      split at h
      next hok => cases h; exact .inr ⟨rfl, hok, rfl, rfl⟩
      next => cases h
    | check | scan _ | erase _ | entry _ _ | slot _ | complete _ => cases h
  | memWrite =>
    cases p with
    | raw => simp only [planOf, planMemWrite] at h; split at h <;> cases h
    | check | scan _ | erase _ | entry _ _ | slot _ | complete _ => cases h
  | crcCompute | logErase | logReadReset | illegal _ => cases p <;> cases h

theorem Action.transaction_cases {x : Action} {a n : Nat} (h : x.transaction = some (a, n)) :
    (∃ k, x = .read a n k) ∨ ∃ v p, x = .write a v p ∧ v.length = n := by
  cases x with
  | goto _ | complete _ => cases h
  | read _ _ k => cases h; exact .inl ⟨k, rfl⟩
  | write _ v p => cases h; exact .inr ⟨v, p, rfl, rfl⟩

/-- Every transaction is at most one slot, from the base of a slot, or has a range that a raw command checked. -/
theorem Command.next_transaction_cases {c : Command} {a n : Nat} (h : c.next.transaction = some (a, n)) :
    (∃ t : SlotIndex, a = slotBase t ∧ 1 ≤ n ∧ n ≤ 64) ∨
    ((c.instr = .memRead ∨ c.instr = .memWrite) ∧ rangeOK a n = true) := by
  rcases Action.transaction_cases h with ⟨k, hread⟩ | ⟨v, p, hwrite, rfl⟩
  · rcases planOf_read_cases hread with ⟨t, rfl, hn⟩ | ⟨hi, hok, rfl, rfl⟩
    · exact .inl ⟨t, rfl, by omega, by omega⟩
    · exact .inr ⟨.inl hi, hok⟩
  · rcases planOf_write_cases hwrite with ⟨-, t, rfl, rfl⟩ | ⟨-, hok, t, rfl, rfl⟩ | ⟨hi, hok, rfl, rfl⟩
    · exact .inl ⟨t, rfl, by simp, by simp⟩
    · obtain ⟨-, hn, -⟩ := (messageOK_iff _).1 hok
      have hlen : (encodeEntry c.ops.data).length = c.ops.n + 3 := by
        rw [encodeEntry_length, Operands.data_length (by omega)]
      exact .inl ⟨t, rfl, by omega, by omega⟩
    · obtain ⟨-, -, hn, -⟩ := (rangeOK_iff _ _).1 hok
      rw [Operands.data_length hn]
      exact .inr ⟨.inr hi, hok⟩

theorem allowedTransaction_of_slot (t : SlotIndex) {n : Nat} (hpos : 1 ≤ n) (hn : n ≤ 64) :
    AllowedTransaction (slotBase t) n ∧ slotBase t + n ≤ Config.logSize := by
  simp only [AllowedTransaction, slotBase_eq, Config.memSize, Config.logSize]
  omega

theorem allowedTransaction_of_rangeOK {a n : Nat} (h : rangeOK a n = true) : AllowedTransaction a n := by
  obtain ⟨ha, hpos, hn, hblock⟩ := (rangeOK_iff a n).1 h
  simp only [AllowedTransaction, Config.memSize]
  omega

/-- Settles O25: a slot lies inside the log and is one block; the ranges of the raw commands have been checked. -/
theorem transactionsStayInTheirBlock : Obligations.TransactionsStayInTheirBlock := by
  unfold Obligations.TransactionsStayInTheirBlock
  intro c a n h
  rcases Command.next_transaction_cases h with ⟨t, rfl, hpos, hn⟩ | ⟨hraw, hok⟩
  · obtain ⟨hallowed, hlog⟩ := allowedTransaction_of_slot t hpos hn
    exact ⟨hallowed, fun _ _ => hlog⟩
  · exact ⟨allowedTransaction_of_rangeOK hok, fun hread hwrite => (hraw.elim hread hwrite).elim⟩

end Sys2Proof.Machine
end

section
/-! Decoding and encoding of command words, the step that runs a decoded word, and the illegal opcodes
(30_encoding.md R90, R92, R93, 42_raw_memory.md R204; O1, O2, O3, O4, O46). -/

namespace Sys2Proof.Machine

/-! ### The opcodes that R93 calls illegal -/

theorem reservedOpcode_iff (op : Byte) : reservedOpcode op = true ↔ op.toNat = 0 ∨ 0x0A ≤ op.toNat := by
  simp [reservedOpcode, BitVec.ule, ← BitVec.toNat_inj]

/-- The opcode map lists no reserved opcode, so the lookup ends in its last row. -/
theorem decodeByte_of_reserved {op : Byte} (h : reservedOpcode op = true) : decodeByte op = .illegal op := by
  have hunlisted := (reservedOpcode_iff op).1 h
  unfold decodeByte
  split
  case h_10 => rfl
  all_goals omega

/-- Whatever the byte, it decodes to a well-formed command: the opcode of an illegal one is none of those listed. -/
theorem decodeByte_wellFormed (op : Byte) : (decodeByte op).wellFormed = true := by
  unfold decodeByte
  split
  case h_10 => exact (reservedOpcode_iff op).2 (by grind)
  all_goals rfl

/-- The opcode of a well-formed command stands for that command and no other. -/
theorem decodeByte_opcode_of_wellFormed {i : Instr} (h : i.wellFormed = true) : decodeByte i.opcode = i := by
  cases i with
  | illegal op => exact decodeByte_of_reserved h
  | crcCompute | logAppend | logErase | logReadReset | logReadNext | logCheckSlot | logFindFree | memRead | memWrite =>
    rfl

/-! ### Words -/

@[simp] theorem decode_cons (op : Byte) (rest : List Byte) : decode (op :: rest) = .ok (decodeByte op, rest) := rfl

/-- Settles O2: a word is the opcode of its command, and the opcode is looked up. -/
theorem decodeOfEncodeIsTheCommand : Obligations.DecodeOfEncodeIsTheCommand := by
  unfold Obligations.DecodeOfEncodeIsTheCommand
  intro i rest h
  rw [encode, List.singleton_append, decode_cons, decodeByte_opcode_of_wellFormed h]

/-- Settles O3: the command that the first byte stands for has that byte as its opcode. -/
theorem encodeOfDecodeIsTheWord : Obligations.EncodeOfDecodeIsTheWord := by
  unfold Obligations.EncodeOfDecodeIsTheWord
  refine ⟨fun bs i rest h => ?_, fun bs => ?_⟩
  · cases bs with
    | nil => cases h
    | cons op tail =>
      cases h
      exact ⟨decodeByte_wellFormed op, by rw [encode, decodeByte_opcode, List.singleton_append]⟩
  · cases bs with
    | nil => exact iff_of_true rfl rfl
    | cons op tail => exact iff_of_false nofun nofun

/-- Settles O1: each listed opcode is that of its command, and 0x00 and 0xFF are reserved. -/
theorem opcodeMapDecodes : Obligations.OpcodeMapDecodes :=
  have hword (i : Instr) (h : i.wellFormed = true) : decode [i.opcode] = .ok (i, []) :=
    decodeOfEncodeIsTheCommand i [] h
  ⟨hword .crcCompute rfl, hword .logAppend rfl, hword .logErase rfl, hword .logReadReset rfl, hword .logReadNext rfl,
    hword .logCheckSlot rfl, hword .logFindFree rfl, hword .memRead rfl, hword .memWrite rfl,
    hword (.illegal 0x00) rfl, hword (.illegal 0xFF) rfl⟩

/-! ### The step -/

theorem step_run {s : State} {op : Byte} {rest : List Input} (hin : s.inputs = .run op :: rest) :
    step s = exec (decodeByte op) { s with inputs := rest } := step_eq_onInput hin

/-- Settles O4: the item `run op` is the command that the byte `op` decodes to. -/
theorem stepRunsTheDecodedCommand : Obligations.StepRunsTheDecodedCommand := by
  unfold Obligations.StepRunsTheDecodedCommand
  intro s op i rest hin hdecode
  obtain rfl : decodeByte op = i := by simpa using hdecode
  exact step_run hin

/-! ### The illegal command (42_raw_memory.md R204) -/

/-- An illegal command is its check, which raises ILLEGAL_CMD, and the completion: it issues no transaction. -/
theorem exec_illegal_idle {s : State} (op : Byte) (hs : s.seq = .idle) :
    exec (.illegal op) s = .next (s.after 0
      { s.regs with cmd := op, done := true, valid := false, full := false, errf := true, err := .illegalCmd }
      s.mem) := by
  have hcheck : planOf (.illegal op) s.regs.sample .check = .goto (raise .illegalCmd) := rfl
  have hcomplete : planOf (.illegal op) s.regs.sample (raise .illegalCmd) = .complete { err := .illegalCmd } := rfl
  rw [exec_idle _ hs, State.accept_eq_midway, State.runPlan_goto _ hcheck, State.runPlan_complete _ hcomplete]
  rfl

/-- Settles O46: a reserved opcode decodes to the illegal command, and the step runs it. -/
theorem illegalOpcodeResult : Obligations.IllegalOpcodeResult := by
  unfold Obligations.IllegalOpcodeResult
  intro s op hs hop
  have hreserved : reservedOpcode op = true := (reservedOpcode_iff op).2 (hop.imp_left (congrArg BitVec.toNat))
  have hdecode := decodeByte_of_reserved hreserved
  refine ⟨hdecode, exec_illegal_idle op hs, fun rest hin => ?_⟩
  rw [step_run hin, hdecode]
  exact exec_illegal_idle (s := { s with inputs := rest }) op hs

end Sys2Proof.Machine
end

section
/-! The CRC unit: the residue law, the difference law and the detection of a changed byte, and CRC_COMPUTE
(40_crc.md R120, R121, R123; O26, O27, O28, O29, O30). -/

namespace Sys2Proof.Machine

/-! ### The residue (40_crc.md R123) -/

/-- While no 1 falls out, the division only shifts. -/
theorem crcBits_eq_shiftLeft {k : Nat} {c : Half} (h : c.toNat * 2 ^ k < 2 ^ 16) : crcBits k c = c <<< k := by
  induction k generalizing c with
  | zero => simp [crcBits]
  | succ k ih =>
    rw [Nat.pow_succ', ← Nat.mul_assoc] at h
    have hc : 2 * c.toNat < 2 ^ 16 := by
      have := Nat.le_mul_of_pos_right (c.toNat * 2) (Nat.two_pow_pos k)
      omega
    have hbit : crcBit c = c <<< 1 := by simp [crcBit_eq, BitVec.msb_eq_false_iff_two_mul_lt.2 hc]
    have hshift : (c <<< 1).toNat = c.toNat * 2 := by bv_omega
    rw [crcBits, hbit, ih (by rwa [hshift]), ← BitVec.shiftLeft_add, Nat.add_comm]

/-- The byte in bits 15:8 cancels the upper half. -/
theorem xor_hiByte_shiftLeft (c : Half) : c ^^^ ((hiByte c).setWidth 16 <<< 8) = (loByte c).setWidth 16 := by
  ext i hi
  by_cases h : i < 8
  · simp [hiByte, loByte, h, BitVec.getLsbD_eq_getElem hi]
  · have hsub : 8 + (i - 8) = i := by omega
    simp [hiByte, loByte, h, hsub, hi, show i - 8 < 8 by omega]

/-- A CRC's own upper byte leaves its lower byte, moved to the upper half. -/
theorem crcByte_hiByte (c : Half) : crcByte c (hiByte c) = (loByte c).setWidth 16 <<< 8 := by
  have hlt : ((loByte c).setWidth 16 : Half).toNat * 2 ^ 8 < 2 ^ 16 := by
    have := (loByte c).isLt
    rw [BitVec.toNat_setWidth_of_le (by decide)]
    omega
  rw [crcByte, xor_hiByte_shiftLeft, crcBits_eq_shiftLeft hlt]

theorem crcByte_shiftLeft_self (b : Byte) : crcByte (b.setWidth 16 <<< 8) b = 0#16 := by
  rw [crcByte, BitVec.xor_self, crcBits_zero]

/-- Settles O27: the upper byte of the CRC moves its lower byte up, and the lower byte cancels that. -/
theorem crcResidueIsZero : Obligations.CrcResidueIsZero := by
  unfold Obligations.CrcResidueIsZero
  intro s
  rw [crc16_eq_foldl (s ++ _), List.foldl_append, ← crc16_eq_foldl]
  simp only [List.foldl_cons, List.foldl_nil, crcByte_hiByte, crcByte_shiftLeft_self]
  rfl

/-! ### The difference (40_crc.md R123) -/

/-- The difference of two CRCs is the division of the difference of the sequences, begun at 0: the initial value
cancels. -/
theorem crc16_xor_crc16 {s t : List Byte} (h : s.length = t.length) :
    crc16 s ^^^ crc16 t = (List.zipWith (· ^^^ ·) s t).foldl crcByte 0#16 := by
  rw [crc16_eq_foldl, crc16_eq_foldl, ← foldl_crcByte_xor s t _ _ h, BitVec.xor_self]

/-- Settles O28: both differences are the division of the same bytes. -/
theorem crcDifferenceLaw : Obligations.CrcDifferenceLaw := by
  unfold Obligations.CrcDifferenceLaw
  intro s t s' t' hlen hlen' _ hdiff
  rw [crc16_xor_crc16 hlen, crc16_xor_crc16 hlen', hdiff]

/-! ### The detection of a changed byte (40_crc.md R123) -/

theorem crcBits_injective (k : Nat) : Function.Injective (crcBits k) := by
  intro c d h
  refine BitVec.xor_eq_zero_iff.1 (crcBits_eq_zero (k := k) ?_)
  rw [crcBits_xor, h]
  exact BitVec.xor_self

theorem crcByte_left_injective (b : Byte) : Function.Injective fun c => crcByte c b :=
  fun _ _ h => BitVec.xor_left_inj _ |>.1 (crcBits_injective 8 h)

theorem crcByte_right_injective (c : Half) : Function.Injective (crcByte c) := by
  intro a b h
  have hshift : (a.setWidth 16 : Half) <<< 8 = b.setWidth 16 <<< 8 :=
    BitVec.xor_right_inj _ |>.1 (crcBits_injective 8 h)
  bv_omega

theorem foldl_crcByte_injective (s : List Byte) : Function.Injective fun c => s.foldl crcByte c := by
  induction s with
  | nil => exact fun _ _ h => h
  | cons b s ih => exact fun _ _ h => crcByte_left_injective b (ih h)

/-- No byte can be replaced by another under the same result: the bytes before it lead to one value, the byte step tells
the two apart, and the bytes after it lose nothing. -/
theorem eq_getElem_of_foldl_crcByte_set {s : List Byte} {j : Nat} (hj : j < s.length) {x : Byte} {c : Half}
    (h : (s.set j x).foldl crcByte c = s.foldl crcByte c) : x = s[j] := by
  induction s generalizing j c with
  | nil => simp at hj
  | cons a s ih =>
    cases j with
    | zero => exact crcByte_right_injective c (foldl_crcByte_injective s h)
    | succ j => exact ih (Nat.lt_of_succ_lt_succ hj) h

theorem one_shiftLeft_ne_zero : ∀ b : Fin 8, 1#8 <<< b.val ≠ 0#8 := by decide

/-- Settles O29: a flipped bit makes another byte of it, as the flip is not 0. -/
theorem crcDetectsEverySingleBit : Obligations.CrcDetectsEverySingleBit := by
  unfold Obligations.CrcDetectsEverySingleBit
  intro s j hj b h
  rw [crc16_eq_foldl, crc16_eq_foldl] at h
  exact one_shiftLeft_ne_zero b (xor_left_eq_self_iff.1 (eq_getElem_of_foldl_crcByte_set hj h))

/-! ### CRC_COMPUTE (40_crc.md R121) -/

/-- A command whose operand checks lead to a completion issues no transaction: it writes the staged results. -/
theorem exec_idle_of_check_complete {s : State} {i : Instr} {g : Staged} (hs : s.seq = .idle)
    (hcheck : planOf i s.regs.sample .check = .goto (.complete g)) :
    exec i s = .next (s.after 0 ((s.begun i).regs.commit g) s.mem) := by
  rw [exec_idle i hs, State.accept_eq_midway, State.runPlan_goto _ hcheck,
    State.runPlan_complete _ (planOf_complete i _ g), State.begun_after]

/-- Settles O30: above 64 the check raises BAD_PARAM, else it stages the CRC of the sampled bytes. -/
theorem crcComputeResult : Obligations.CrcComputeResult := by
  unfold Obligations.CrcComputeResult
  intro s hs
  refine ⟨fun hlen => ?_, fun hlen => ?_⟩
  · have hcheck : planOf .crcCompute s.regs.sample .check =
        .goto (.complete { crc := some (crc16 s.regs.sample.data) }) :=
      congrArg Action.goto (if_neg (Nat.not_lt.2 hlen))
    exact exec_idle_of_check_complete hs hcheck
  · have hcheck : planOf .crcCompute s.regs.sample .check = .goto (raise .badParam) :=
      congrArg Action.goto (if_pos hlen)
    exact exec_idle_of_check_complete hs hcheck

/-! ### Known answers (40_crc.md R123) -/

/-- Settles O26: the algorithm is run. -/
theorem crcOfKnownSequences : Obligations.CrcOfKnownSequences := by
  unfold Obligations.CrcOfKnownSequences
  exact ⟨rfl, by decide +kernel⟩

end Sys2Proof.Machine
end

section
/-! The validity predicate and the entry encoder: the predicate read offset by offset, and what it says of encoded and of
corrupted entries (41_log.md R142, R146, R147, 90_conflicts.md C3; O31, O32, O33). -/

namespace Sys2Proof.Machine

/-! ### The terminator -/

theorem findIdx_zero_eq_iff {raw : List Byte} {k : Nat} (hk : k < raw.length) :
    raw.findIdx (· == 0x00) = k ↔ raw[k]? = some 0x00 ∧ ∀ j < k, raw[j]? ≠ some 0x00 := by
  rw [List.findIdx_eq hk]
  refine and_congr (by simp [List.getElem?_eq_getElem hk]) (forall₂_congr fun j hj => ?_)
  simp [List.getElem?_eq_getElem (hj.trans hk)]

theorem getD_eq_iff_getElem? {raw : List Byte} {j : Nat} (hj : j < raw.length) (b : Byte) :
    raw.getD j 0x00 = b ↔ raw[j]? = some b := by
  simp [List.getElem?_eq_getElem hj, List.getD]

/-- The tests of the predicate, for the terminator it finds. -/
theorem validEntry_eq_some_iff_findIdx (raw : List Byte) (k : Nat) :
    validEntry raw = some k ↔
      raw.getD 0 0x00 ≠ 0x00 ∧ raw.findIdx (· == 0x00) = k ∧ k ≤ 61 ∧
        raw.getD (k + 1) 0x00 = hiByte (crc16 (raw.take (k + 1))) ∧
        raw.getD (k + 2) 0x00 = loByte (crc16 (raw.take (k + 1))) := by
  simp only [validEntry, Config.maxMsg]
  split
  next h0 => exact iff_of_false nofun fun ⟨hne, _⟩ => hne h0
  next h0 =>
    split
    next hlate => exact iff_of_false nofun (by rintro ⟨-, rfl, hk, -⟩; omega)
    next hk =>
      split
      next hcrc =>
        refine ⟨fun h => ?_, fun ⟨_, hk, _⟩ => congrArg some hk⟩
        cases h
        exact ⟨h0, rfl, by omega, hcrc⟩
      next hcrc => exact iff_of_false nofun (by rintro ⟨-, rfl, -, h⟩; exact hcrc h)

/-- Settles O31: the first terminator is the index found, and a slot whose first byte is not 0x00 has none at offset 0. -/
theorem validityPredicate : Obligations.ValidityPredicate := by
  unfold Obligations.ValidityPredicate
  intro raw k hlen
  have hstart : raw.getD 0 0x00 ≠ 0x00 ↔ raw[0]? ≠ some 0x00 := (getD_eq_iff_getElem? (by omega) _).not
  rw [validEntry_eq_some_iff_findIdx, hstart]
  by_cases hk : k ≤ 61
  · rw [findIdx_zero_eq_iff (by omega), getD_eq_iff_getElem? (by omega), getD_eq_iff_getElem? (by omega)]
    constructor
    · rintro ⟨h0, ⟨hterm, hfirst⟩, -, hcrc⟩
      have hk0 : k ≠ 0 := by rintro rfl; exact h0 hterm
      exact ⟨by omega, hk, hterm, hfirst, hcrc⟩
    · rintro ⟨hpos, -, hterm, hfirst, hcrc⟩
      exact ⟨hfirst 0 (by omega), ⟨hterm, hfirst⟩, hk, hcrc⟩
  · exact iff_of_false (fun ⟨_, _, hmax, _⟩ => hk hmax) (fun ⟨_, hmax, _⟩ => hk hmax)

/-! ### Encoded entries (41_log.md R147) -/

/-- Settles O32: the message holds no terminator, so the encoder's own is the first, and its CRC follows it. -/
theorem encodedEntriesAreValid : Obligations.EncodedEntriesAreValid := by
  unfold Obligations.EncodedEntriesAreValid
  intro m rest hpos hmax hm hlen
  have hentry : encodeEntry m ++ rest = (m ++ [0x00]) ++ (hiByte (entryCrc m) :: loByte (entryCrc m) :: rest) := by
    simp [encodeEntry]
  have hcovered : ((m ++ [0x00]) ++ (hiByte (entryCrc m) :: loByte (entryCrc m) :: rest)).take (m.length + 1) =
      m ++ [0x00] := List.take_left' (by simp)
  refine ⟨(validityPredicate _ _ hlen).2 ⟨hpos, hmax, ?_, fun j hj => ?_, ?_, ?_⟩, ?_⟩
  · simp [encodeEntry]
  · rw [encodeEntry, List.append_assoc, List.getElem?_append_left hj, List.getElem?_eq_getElem hj]
    simpa using hm _ (List.getElem_mem hj)
  · rw [hentry, hcovered]
    simp [entryCrc]
  · rw [hentry, hcovered]
    simp [entryCrc]
  · rw [encodeEntry, List.append_assoc, List.take_left']
    rfl

/-! ### Corrupted entries (90_conflicts.md C3) -/

theorem eq_of_hiByte_eq_of_loByte_eq {v w : Half} (hhi : hiByte v = hiByte w) (hlo : loByte v = loByte w) : v = w := by
  have h1 := congrArg BitVec.toNat hhi
  have h2 := congrArg BitVec.toNat hlo
  rw [hiByte_toNat, hiByte_toNat] at h1
  rw [loByte_toNat, loByte_toNat] at h2
  exact BitVec.eq_of_toNat_eq (by omega)

/-- A valid slot's first byte is not 0x00. -/
theorem getD_zero_ne_of_validEntry {raw : List Byte} (h : (validEntry raw).isSome) : raw.getD 0 0x00 ≠ 0x00 := by
  obtain ⟨k, hk⟩ := Option.isSome_iff_exists.1 h
  exact ((validEntry_eq_some_iff_findIdx raw k).1 hk).1

/-- Two valid slots with one terminator and one pair of bytes after it have the same CRC before it. -/
theorem crc16_take_eq_of_validEntry {raw raw' : List Byte} {k : Nat} (hlen : raw.length = 64) (hlen' : raw'.length = 64)
    (hv : validEntry raw = some k) (hv' : validEntry raw' = some k) (hsame : ∀ i, k < i → raw'[i]? = raw[i]?) :
    crc16 (raw'.take (k + 1)) = crc16 (raw.take (k + 1)) := by
  obtain ⟨-, -, -, -, hhi, hlo⟩ := (validityPredicate raw k hlen).1 hv
  obtain ⟨-, -, -, -, hhi', hlo'⟩ := (validityPredicate raw' k hlen').1 hv'
  rw [hsame _ (by omega), hhi] at hhi'
  rw [hsame _ (by omega), hlo] at hlo'
  exact (eq_of_hiByte_eq_of_loByte_eq (Option.some.inj hhi') (Option.some.inj hlo')).symm

/-- A change of one byte before the terminator to another that is not 0x00 leaves the first terminator where it was. -/
theorem terminator_eq_of_validEntry_set {raw : List Byte} {k k' j : Nat} {x : Byte} (hlen : raw.length = 64)
    (hj : j < k) (hx : x ≠ 0x00) (hv : validEntry raw = some k) (hv' : validEntry (raw.set j x) = some k') :
    k' = k := by
  obtain ⟨-, hmax, hterm, hfirst, -, -⟩ := (validityPredicate raw k hlen).1 hv
  obtain ⟨-, -, hterm', hfirst', -, -⟩ := (validityPredicate _ k' (by rw [List.length_set, hlen])).1 hv'
  rcases Nat.lt_trichotomy k' k with hlt | heq | hgt
  · by_cases hjk : j = k'
    · subst hjk
      rw [List.getElem?_set_self (by omega)] at hterm'
      exact absurd (Option.some.inj hterm') hx
    · rw [List.getElem?_set_ne hjk] at hterm'
      exact absurd hterm' (hfirst k' hlt)
  · exact heq
  · refine absurd ?_ (hfirst' k hgt)
    rw [List.getElem?_set_ne (by omega)]
    exact hterm

/-- Settles O33: the flip leaves the terminator and the stored CRC, and changes the CRC of the string. -/
theorem singleBitCorruptionIsDetected : Obligations.SingleBitCorruptionIsDetected := by
  unfold Obligations.SingleBitCorruptionIsDetected
  intro raw k j hj b hlen hv hjk hrestrict
  generalize hx : raw[j] ^^^ (1#8 <<< b.val) = x at hrestrict ⊢
  rw [Option.eq_none_iff_forall_ne_some]
  intro k' hv'
  by_cases hzero : x = 0x00
  · obtain rfl : j = 0 := hrestrict.resolve_left (fun h => h hzero)
    refine getD_zero_ne_of_validEntry (Option.isSome_of_eq_some hv') ?_
    simp [hzero, List.getD, hj]
  · obtain rfl := terminator_eq_of_validEntry_set hlen hjk hzero hv hv'
    have hcrc := crc16_take_eq_of_validEntry hlen (by rw [List.length_set, hlen]) hv hv'
      fun i hi => List.getElem?_set_ne (by omega)
    have hjt : j < (raw.take (k' + 1)).length := by rw [List.length_take]; omega
    refine crcDetectsEverySingleBit (raw.take (k' + 1)) j hjt b ?_
    rw [List.getElem_take, hx, ← List.take_set, hcrc]

end Sys2Proof.Machine
end

section
/-! The log commands: where the shared loops of their pseudocode lead, and what each command leaves
(41_log.md R150 to R152, R160 to R162; O38 to O42). -/

namespace Sys2Proof.Machine

variable {s : State} {i : Instr} {found : SlotIndex → Position} {full : Position}

/-! ### The end of a command -/

/-- A command whose operand checks lead on. -/
theorem exec_idle_of_check_goto {q : Position} (hs : s.seq = .idle)
    (hcheck : planOf i s.regs.sample .check = .goto q) :
    exec i s = .next (((s.begun i).midway 0 (.fresh i s.regs) q s.mem 0).runPlan (planOf i) 66) := by
  rw [exec_idle i hs, State.accept_eq_midway, State.runPlan_goto _ hcheck]

/-- Staged results are written, and the command is over. -/
theorem State.runPlan_staged (s : State) (n : Nat) (c : Command) (g : Staged) (m : Memory) (w k : Nat) :
    (s.midway n c (.complete g) m w).runPlan (planOf i) (k + 1) = s.after n (s.regs.commit g) m :=
  State.runPlan_complete k (planOf_complete i _ g)

/-- A failed transaction at `a` ends the command with IO_ERROR (60_exceptions.md R225). -/
theorem State.runPlan_ioError (s : State) (n : Nat) (c : Command) (a : Nat) (m : Memory) (w k : Nat) :
    (s.midway n c (raise .ioError (some a)) m w).runPlan (planOf i) (k + 1) =
      s.after n (s.regs.commit { err := .ioError, faddr := some (BitVec.ofNat 16 a) }) m :=
  State.runPlan_staged s n c _ m w k

/-! ### The scan of a whole command (41_log.md R144) -/

theorem exec_of_scan_to_free (hs : s.seq = .idle) (hcheck : planOf i s.regs.sample .check = .goto (.scan 0))
    (hscan : ∀ j, planOf i s.regs.sample (.scan j) = scanSlot j found full) (t : SlotIndex)
    (htaken : ∀ j < t.val, ¬ s.mem.FreeSlot j) (hfree : s.mem.FreeSlot t) (hok : s.NextSucceed (t.val + 1)) :
    exec i s = .next (((s.begun i).midway (t.val + 1) (.fresh i s.regs) (found t) s.mem 0).runPlan (planOf i)
      (65 - t.val)) := by
  rw [exec_idle_of_check_goto hs hcheck, show 66 = 65 - t.val + (t.val + 1) by omega,
    State.runPlan_scan_to_free (s := s.begun i) (c := .fresh i s.regs) _ hscan t htaken hfree hok]

theorem exec_of_scan_all_taken (hs : s.seq = .idle) (hcheck : planOf i s.regs.sample .check = .goto (.scan 0))
    (hscan : ∀ j, planOf i s.regs.sample (.scan j) = scanSlot j found full) (htaken : ∀ j < 32, ¬ s.mem.FreeSlot j)
    (hok : s.NextSucceed 32) :
    exec i s = .next (((s.begun i).midway 32 (.fresh i s.regs) full s.mem 0).runPlan (planOf i) 34) := by
  rw [exec_idle_of_check_goto hs hcheck, show 66 = 34 + 32 by rfl,
    State.runPlan_scan_all_taken (s := s.begun i) (c := .fresh i s.regs) 34 hscan htaken hok]

theorem exec_of_scan_to_failure (hs : s.seq = .idle) (hcheck : planOf i s.regs.sample .check = .goto (.scan 0))
    (hscan : ∀ j, planOf i s.regs.sample (.scan j) = scanSlot j found full) {j : Nat} (hj : j < 32)
    (htaken : ∀ l < j, ¬ s.mem.FreeSlot l) (hfail : s.FirstFailure j) :
    exec i s = .next (s.after (j + 1) ((s.begun i).regs.commit
      { err := .ioError, faddr := some (BitVec.ofNat 16 (64 * j)) }) s.mem) := by
  rw [exec_idle_of_check_goto hs hcheck, show 66 = 64 - j + 1 + (j + 1) by omega,
    State.runPlan_scan_to_failure (s := s.begun i) (c := .fresh i s.regs) _ hscan ⟨j, hj⟩ htaken hfail,
    State.runPlan_ioError, State.begun_after, slotBase_eq]

/-! ### LOG_FIND_FREE (41_log.md R152) -/

theorem planLogFindFree_scan (o : Operands) (j : SlotIndex) :
    planOf .logFindFree o (.scan j) =
      scanSlot j (fun t => .complete { rslt := some (slotResult t) }) (.complete { full := true, rslt := some 32 }) :=
  rfl

/-- Settles O39: the scan ends at the first free slot, past slot 31, or at the read that fails. -/
theorem findFreeResult : Obligations.FindFreeResult := by
  unfold Obligations.FindFreeResult
  intro s hs
  have hscan := planLogFindFree_scan s.regs.sample
  refine ⟨fun t htaken hfree hok => ?_, fun htaken hok => ?_, fun j hj htaken hfail => ?_⟩
  · rw [exec_of_scan_to_free hs rfl hscan t htaken hfree hok, show 65 - t.val = 64 - t.val + 1 by omega,
      State.runPlan_staged, State.begun_after]
    rfl
  · rw [exec_of_scan_all_taken hs rfl hscan htaken hok, State.runPlan_staged, State.begun_after]
    rfl
  · exact exec_of_scan_to_failure hs rfl hscan hj htaken hfail

/-! ### LOG_ERASE (41_log.md R151) -/

/-- What memory holds when a write of unspecified bytes is laid over it (20_memory.md R67). -/
theorem Memory.read_writeBytes_torn (m : Memory) {a n : Nat} (d k : Nat) (ha : a + n ≤ Config.memSize) :
    (m.writeBytes a (tornBytes d n)).read k = if a ≤ k ∧ k < a + n then Config.tornByte d (k - a) else m.read k := by
  rw [Memory.read_writeBytes m _ k (by rwa [tornBytes_length]), tornBytes_length]
  split
  next hk => exact tornBytes_getD (by omega) _
  next => rfl

/-- What memory holds when the erase of slot `j` has failed, the slots below it erased. -/
theorem Memory.read_eraseBelow_torn (m : Memory) {j : Nat} (hj : j < 32) (d k : Nat) :
    ((m.eraseBelow j).writeBytes (slotBase j) (tornBytes d 1)).read k =
      if k = 64 * j then Config.tornByte d 0
      else if k < 64 * j ∧ k % 64 = 0 then 0x00 else m.read k := by
  rw [Memory.read_writeBytes_torn _ d k (by simp only [slotBase_eq, Config.memSize]; omega),
    Memory.read_eraseBelow m (by omega), slotBase_eq]
  by_cases hk : k = 64 * j
  · rw [if_pos (by omega), if_pos hk, hk, Nat.sub_self]
  · rw [if_neg (by omega), if_neg hk]

theorem Memory.read_eraseBelow_all (m : Memory) (k : Nat) :
    (m.eraseBelow 32).read k = if k < 2048 ∧ k % 64 = 0 then 0x00 else m.read k :=
  Memory.read_eraseBelow m (Nat.le_refl 32) k

theorem planLogErase_erase (o : Operands) (j : SlotIndex) :
    planOf .logErase o (.erase j) = eraseSlot j (.complete {}) := rfl

/-- Settles O38: the erase ends past slot 31, or at the write that fails. -/
theorem eraseResult : Obligations.EraseResult := by
  unfold Obligations.EraseResult
  intro s hs
  have herase := planLogErase_erase s.regs.sample
  have hbegin := exec_idle_of_check_goto (i := .logErase) hs rfl
  refine ⟨fun hok => ⟨_, ?_, s.mem.read_eraseBelow_all⟩,
    fun j hj ⟨hsucceed, hfails⟩ => ⟨_, ?_, s.mem.read_eraseBelow_torn hj _⟩⟩
  · rw [hbegin, State.runPlan_erase_all 34 herase (by simpa using hok), State.runPlan_staged]
    rfl
  · rw [hbegin, show 66 = 64 - j + 1 + (j + 1) by omega,
      State.runPlan_erase_to_failure _ herase ⟨j, hj⟩ (by simpa using hsucceed) (by simpa using hfails),
      State.runPlan_ioError]
    rw [Nat.zero_add]
    rfl

/-! ### The read-side commands (41_log.md R160 to R162) -/

/-- Settles O40: the check stages CURSOR 0 and END 0. -/
theorem readResetResult : Obligations.ReadResetResult := by
  unfold Obligations.ReadResetResult
  intro s hs
  have hcheck : planOf .logReadReset s.regs.sample .check =
      .goto (.complete { cursor := some 0, ended := some false }) := rfl
  exact exec_idle_of_check_complete hs hcheck

/-- A command that reads slot `j` and stages what `f` makes of its bytes. -/
theorem exec_of_slot_read {j : SlotIndex} {f : List Byte → Staged} (hs : s.seq = .idle)
    (hcheck : planOf i s.regs.sample .check = .goto (.slot j))
    (hslot : planOf i s.regs.sample (.slot j) = .read (slotBase j) 64 fun raw => .complete (f raw))
    (hok : s.failsAt 0 = false) :
    exec i s = .next (s.after 1 ((s.begun i).regs.commit (f (s.mem.slotBytes j))) s.mem) := by
  rw [exec_idle_of_check_goto hs hcheck, State.runPlan_read 65 hslot, State.begun_failsAt, hok]
  exact congrArg _ (State.runPlan_staged ..)

theorem exec_of_slot_read_fails {j : SlotIndex} {f : List Byte → Staged} (hs : s.seq = .idle)
    (hcheck : planOf i s.regs.sample .check = .goto (.slot j))
    (hslot : planOf i s.regs.sample (.slot j) = .read (slotBase j) 64 fun raw => .complete (f raw))
    (hfail : s.failsAt 0 = true) :
    exec i s = .next (s.after 1 ((s.begun i).regs.commit
      { err := .ioError, faddr := some (BitVec.ofNat 16 (64 * j.val)) }) s.mem) := by
  rw [exec_idle_of_check_goto hs hcheck, State.runPlan_read 65 hslot, State.begun_failsAt, hfail]
  exact congrArg _ (State.runPlan_ioError ..)

theorem readNextResult_of_valid {o : Operands} {raw : List Byte} {k : Nat} (j : SlotIndex)
    (h : validEntry raw = some k) :
    readNextResult o j raw =
      { valid := true, cursor := some j.succ, len := some (BitVec.ofNat 8 k), buf := some (loadBuffer o.buf raw) } := by
  simp [readNextResult, slotItem, h]

theorem readNextResult_of_not_valid {o : Operands} {raw : List Byte} (j : SlotIndex) (h : validEntry raw = .none) :
    readNextResult o j raw = { ended := some true, len := some 0x00, buf := some (loadBuffer o.buf raw) } := by
  simp [readNextResult, slotItem, h]

theorem planLogReadNext_check_over {o : Operands} (h : o.ended = true ∨ o.cursor = 32) :
    planOf .logReadNext o .check = .goto (.complete { ended := some true, len := some 0x00 }) := by
  rcases h with h | h
  · simp [planOf, planLogReadNext, h]
  · cases hended : o.ended <;> simp [planOf, planLogReadNext, h, hended]

theorem planLogReadNext_check_slot {o : Operands} {j : SlotIndex} (hended : o.ended = false)
    (hcursor : o.cursor = j.castSucc) : planOf .logReadNext o .check = .goto (.slot j) := by
  simp [planOf, planLogReadNext, hended, hcursor]

/-- Settles O41: the check tells whether the sequence is over; else the slot's bytes decide what is staged. -/
theorem logReadNextResult : Obligations.ReadNextResult := by
  unfold Obligations.ReadNextResult
  intro s hs
  refine ⟨fun hover => exec_idle_of_check_complete hs (planLogReadNext_check_over hover),
    fun j hended hcursor => ?_⟩
  have hcheck : planOf .logReadNext s.regs.sample .check = .goto (.slot j) :=
    planLogReadNext_check_slot hended hcursor
  have hbuf := loadBuffer_toList_all s.regs.buf (s.mem.slotBytes_length j)
  refine ⟨fun k hok hvalid => ⟨_, hbuf, ?_⟩, fun hok hvalid => ⟨_, hbuf, ?_⟩,
    exec_of_slot_read_fails hs hcheck rfl⟩
  · rw [exec_of_slot_read hs hcheck rfl hok, readNextResult_of_valid j hvalid]
    rfl
  · rw [exec_of_slot_read hs hcheck rfl hok, readNextResult_of_not_valid j hvalid]
    rfl

theorem planLogCheckSlot_check_slot {o : Operands} (h : o.slot.toNat < 32) :
    planOf .logCheckSlot o .check = .goto (.slot ⟨o.slot.toNat, h⟩) := by
  simp [planOf, planLogCheckSlot, Operands.slot?_some h]

theorem planLogCheckSlot_check_out_of_range {o : Operands} (h : ¬ o.slot.toNat < 32) :
    planOf .logCheckSlot o .check = .goto (raise .badParam) := by
  simp [planOf, planLogCheckSlot, Operands.slot?_none h]

/-- LEN after LOG_CHECK_SLOT is the length that the predicate answers. -/
theorem slotItem_len (o : Operands) (raw : List Byte) :
    (slotItem o raw).len = some (match validEntry raw with | some k => BitVec.ofNat 8 k | .none => 0x00) := by
  cases h : validEntry raw <;> simp [slotItem, h]

/-- Settles O42: the check refuses SLOT above 31; else the slot's bytes are staged with what the predicate says. -/
theorem checkSlotResult : Obligations.CheckSlotResult := by
  unfold Obligations.CheckSlotResult
  intro s hs
  refine ⟨fun hslot => exec_idle_of_check_complete hs (planLogCheckSlot_check_out_of_range (Nat.not_lt.2 hslot)),
    fun hslot hok => ?_, fun hslot hfail => ?_⟩
  all_goals have hcheck := planLogCheckSlot_check_slot (o := s.regs.sample) (Nat.lt_succ_of_le hslot)
  · refine ⟨_, loadBuffer_toList_all s.regs.buf (s.mem.slotBytes_length _), ?_⟩
    rw [exec_of_slot_read hs hcheck rfl hok, Regs.commit, slotItem_len]
    rfl
  · exact exec_of_slot_read_fails hs hcheck rfl hfail

end Sys2Proof.Machine
end

section
/-! LOG_APPEND: the illegal message, the entry written into the first free slot or into slot 0 of a log that was full, and the
transactions that can fail (41_log.md R150; O34 to O37). -/

namespace Sys2Proof.Machine

/-- A message that can be appended (41_log.md R150): 1 to 61 bytes, none of them 0x00. -/
structure LegalMessage (m : List Byte) : Prop where
  nonempty : 1 ≤ m.length
  fits : m.length ≤ 61
  noTerminator : ∀ b ∈ m, b ≠ 0x00

theorem legalMessage_of_messageOK {o : Operands} (hok : messageOK o = true) : LegalMessage o.data := by
  obtain ⟨hpos, hmax, hbytes⟩ := (messageOK_iff o).1 hok
  have hlen : o.data.length = o.n := Operands.data_length (by omega)
  exact ⟨hlen ▸ hpos, hlen ▸ hmax, hbytes⟩

/-! ### The plan -/

theorem planLogAppend_check_legal {o : Operands} (hok : messageOK o = true) :
    planOf .logAppend o .check = .goto (.scan 0) := congrArg Action.goto (if_pos hok)

theorem planLogAppend_check_illegal {o : Operands} (hok : ¬ messageOK o = true) :
    planOf .logAppend o .check = .goto (raise .invalidEntry) := congrArg Action.goto (if_neg hok)

theorem planLogAppend_scan (o : Operands) (j : SlotIndex) :
    planOf .logAppend o (.scan j) = scanSlot j (fun t => .entry t false) (.erase 0) := rfl

theorem planLogAppend_erase (o : Operands) (j : SlotIndex) :
    planOf .logAppend o (.erase j) = eraseSlot j (.entry 0 true) := rfl

/-- What a successful append of `m` to slot `t` stages (41_log.md R150). -/
def appendResult (m : List Byte) (t : SlotIndex) (wrapped : Bool) : Staged :=
  { full := wrapped, crc := some (entryCrc m), rslt := some (slotResult t) }

theorem planLogAppend_entry {o : Operands} (hok : messageOK o = true) (t : SlotIndex) (wrapped : Bool) :
    planOf .logAppend o (.entry t wrapped) =
      .write (slotBase t) (encodeEntry o.data) (.complete (appendResult o.data t wrapped)) := if_pos hok

/-! ### The entry write -/

section
variable {s : State} {n : Nat} (hok : messageOK s.regs.sample = true) (t : SlotIndex) (wrapped : Bool) (m : Memory)
  (w k : Nat)
include hok

theorem State.runPlan_entry (hsucceeds : s.failsAt n = false) :
    ((s.begun .logAppend).midway n (.fresh .logAppend s.regs) (.entry t wrapped) m w).runPlan (planOf .logAppend)
        (k + 2) =
      s.after (n + 1) ((s.begun .logAppend).regs.commit (appendResult s.regs.sample.data t wrapped))
        (m.writeBytes (slotBase t) (encodeEntry s.regs.sample.data)) := by
  rw [State.runPlan_write (k + 1) (planLogAppend_entry hok t wrapped), State.begun_failsAt, hsucceeds]
  exact State.runPlan_staged ..

theorem State.runPlan_entry_fails (hfail : s.failsAt n = true) :
    ((s.begun .logAppend).midway n (.fresh .logAppend s.regs) (.entry t wrapped) m w).runPlan (planOf .logAppend)
        (k + 2) =
      s.after (n + 1)
        ((s.begun .logAppend).regs.commit { err := .ioError, faddr := some (BitVec.ofNat 16 (64 * t.val)) })
        (m.writeBytes (slotBase t) (tornBytes (s.draws + n) (s.regs.sample.data.length + 3))) := by
  rw [State.runPlan_write (k + 1) (planLogAppend_entry hok t wrapped), State.begun_failsAt, hfail, encodeEntry_length]
  exact State.runPlan_ioError ..

end

/-- An entry of a legal message stays in its slot, and the slot in the memory. -/
theorem slotBase_add_le_memSize {t l : Nat} (ht : t < 32) (hl : l ≤ 61) : slotBase t + (l + 3) ≤ Config.memSize := by
  simp only [slotBase_eq, Config.memSize]
  omega

/-- What memory holds with the entry of `msg` written to slot `t`. -/
theorem Memory.read_writeBytes_entry (m : Memory) {t : Nat} {msg : List Byte} (ht : t < 32) (hlen : msg.length ≤ 61)
    (k : Nat) :
    (m.writeBytes (slotBase t) (encodeEntry msg)).read k =
      if 64 * t ≤ k ∧ k < 64 * t + msg.length + 3 then (encodeEntry msg).getD (k - 64 * t) 0x00 else m.read k := by
  rw [Memory.read_writeBytes m _ k (by rw [encodeEntry_length]; exact slotBase_add_le_memSize ht hlen),
    encodeEntry_length, slotBase_eq]
  rfl

theorem Memory.read_writeBytes_entry_torn (m : Memory) {t l : Nat} (ht : t < 32) (hl : l ≤ 61) (d k : Nat) :
    (m.writeBytes (slotBase t) (tornBytes d (l + 3))).read k =
      if 64 * t ≤ k ∧ k < 64 * t + l + 3 then Config.tornByte d (k - 64 * t) else m.read k := by
  rw [Memory.read_writeBytes_torn m d k (slotBase_add_le_memSize ht hl), slotBase_eq]
  rfl

/-! ### The command -/

section
variable {s : State} (hs : s.seq = .idle) (hok : messageOK s.regs.sample = true)
include hs hok

/-- With a free slot, the scan leads to the entry write. -/
theorem exec_logAppend_to_free (t : SlotIndex) (htaken : ∀ j < t.val, ¬ s.mem.FreeSlot j) (hfree : s.mem.FreeSlot t)
    (hsucceed : s.NextSucceed (t.val + 1)) :
    exec .logAppend s = .next (((s.begun .logAppend).midway (t.val + 1) (.fresh .logAppend s.regs) (.entry t false)
      s.mem 0).runPlan (planOf .logAppend) (63 - t.val + 2)) := by
  rw [exec_of_scan_to_free hs (planLogAppend_check_legal hok) (planLogAppend_scan _) t htaken hfree hsucceed,
    show 65 - t.val = 63 - t.val + 2 by omega]

/-- On a full log, the scan leads to the erase. -/
theorem exec_logAppend_to_erase (htaken : ∀ j < 32, ¬ s.mem.FreeSlot j) (hsucceed : s.NextSucceed 32) :
    exec .logAppend s = .next (((s.begun .logAppend).midway 32 (.fresh .logAppend s.regs) (.erase 0) s.mem 0).runPlan
      (planOf .logAppend) 34) :=
  exec_of_scan_all_taken hs (planLogAppend_check_legal hok) (planLogAppend_scan _) htaken hsucceed

/-- On a full log that is erased, the erase leads to the entry write. -/
theorem exec_logAppend_to_wrapped (htaken : ∀ j < 32, ¬ s.mem.FreeSlot j) (hsucceed : s.NextSucceed 64) :
    exec .logAppend s = .next (((s.begun .logAppend).midway 64 (.fresh .logAppend s.regs) (.entry 0 true)
      (s.mem.eraseBelow 32) s.tWc).runPlan (planOf .logAppend) 2) := by
  rw [exec_logAppend_to_erase hs hok htaken fun k hk => hsucceed k (by omega),
    State.runPlan_erase_all (s := s.begun .logAppend) (c := .fresh .logAppend s.regs) 2 (planLogAppend_erase _)
      fun k hk => hsucceed (32 + k) (by omega)]
  rfl

/-- The append of a legal message with a free slot. -/
theorem exec_logAppend_free (t : SlotIndex) (htaken : ∀ j < t.val, ¬ s.mem.FreeSlot j) (hfree : s.mem.FreeSlot t)
    (hsucceed : s.NextSucceed (t.val + 2)) :
    exec .logAppend s = .next (s.after (t.val + 2)
      ((s.begun .logAppend).regs.commit (appendResult s.regs.sample.data t false))
      (s.mem.writeBytes (slotBase t) (encodeEntry s.regs.sample.data))) := by
  rw [exec_logAppend_to_free hs hok t htaken hfree fun k hk => hsucceed k (by omega),
    State.runPlan_entry hok t false _ _ _ (hsucceed (t.val + 1) (by omega))]

/-- The append of a legal message to a full log. -/
theorem exec_logAppend_full (htaken : ∀ j < 32, ¬ s.mem.FreeSlot j) (hsucceed : s.NextSucceed 65) :
    exec .logAppend s = .next (s.after 65
      ((s.begun .logAppend).regs.commit (appendResult s.regs.sample.data 0 true))
      ((s.mem.eraseBelow 32).writeBytes (slotBase 0) (encodeEntry s.regs.sample.data))) := by
  rw [exec_logAppend_to_wrapped hs hok htaken fun k hk => hsucceed k (by omega),
    State.runPlan_entry hok 0 true _ _ 0 (hsucceed 64 (by omega))]
  rfl

end

/-- What memory holds with the entry of `msg` written to slot 0 of a log that was erased. -/
theorem Memory.read_eraseBelow_entry (m : Memory) {msg : List Byte} (hlen : msg.length ≤ 61) (k : Nat) :
    ((m.eraseBelow 32).writeBytes (slotBase 0) (encodeEntry msg)).read k =
      if k < msg.length + 3 then (encodeEntry msg).getD k 0x00
      else if k < 2048 ∧ k % 64 = 0 then 0x00 else m.read k := by
  rw [Memory.read_writeBytes_entry _ (by omega) hlen, Memory.read_eraseBelow_all]
  simp

theorem Memory.read_eraseBelow_entry_torn (m : Memory) {l : Nat} (hl : l ≤ 61) (d k : Nat) :
    ((m.eraseBelow 32).writeBytes (slotBase 0) (tornBytes d (l + 3))).read k =
      if k < l + 3 then Config.tornByte d k
      else if k < 2048 ∧ k % 64 = 0 then 0x00 else m.read k := by
  rw [Memory.read_writeBytes_entry_torn _ (by omega) hl, Memory.read_eraseBelow_all]
  simp

/-! ### The statements -/

/-- Settles O34: the scan finds the slot, and the entry stays inside it. -/
theorem appendWritesTheFirstFreeSlot : Obligations.AppendWritesTheFirstFreeSlot := by
  unfold Obligations.AppendWritesTheFirstFreeSlot
  intro s t m hs hm hpos hmax hbytes htaken hfree hsucceed
  subst hm
  have hok : messageOK s.regs.sample = true := (messageOK_iff _).2 ⟨hpos, hmax, hbytes⟩
  have hlen := (legalMessage_of_messageOK hok).fits
  exact ⟨exec_logAppend_free hs hok t htaken hfree hsucceed, s.mem.read_writeBytes_entry t.isLt hlen⟩

/-- Settles O35: the scan finds no slot, the erase frees them all, and the entry goes into slot 0. -/
theorem appendToAFullLogErasesFirst : Obligations.AppendToAFullLogErasesFirst := by
  unfold Obligations.AppendToAFullLogErasesFirst
  intro s m hs hm hpos hmax hbytes htaken hsucceed
  subst hm
  have hok : messageOK s.regs.sample = true := (messageOK_iff _).2 ⟨hpos, hmax, hbytes⟩
  have hlen := (legalMessage_of_messageOK hok).fits
  exact ⟨_, exec_logAppend_full hs hok htaken hsucceed, s.mem.read_eraseBelow_entry hlen⟩

/-- Settles O36: each of the three faults makes the check raise INVALID_ENTRY. -/
theorem appendOfAnIllegalMessage : Obligations.AppendOfAnIllegalMessage := by
  unfold Obligations.AppendOfAnIllegalMessage
  intro s hs hillegal
  have hok : ¬ messageOK s.regs.sample = true := by
    rw [messageOK_iff]
    rintro ⟨hpos, hmax, hbytes⟩
    rcases hillegal with hzero | hlong | hmem
    · exact absurd hzero (Nat.ne_of_gt hpos)
    · exact absurd hlong (Nat.not_lt.2 hmax)
    · exact hbytes _ hmem rfl
  exact exec_idle_of_check_complete hs (planLogAppend_check_illegal hok)

/-- Settles O37: the scan read, the erase write, or the entry write that fails ends the command. -/
theorem appendIoErrors : Obligations.AppendIoErrors := by
  unfold Obligations.AppendIoErrors
  intro s m hs hm hpos hmax hbytes
  subst hm
  have hok : messageOK s.regs.sample = true := (messageOK_iff _).2 ⟨hpos, hmax, hbytes⟩
  have hlen := (legalMessage_of_messageOK hok).fits
  refine ⟨fun i hi htaken hfail => ?_, fun i hi htaken hfail => ⟨_, ?_, s.mem.read_eraseBelow_torn hi _⟩,
    fun t ht htaken hfree hfail => ⟨_, ?_, s.mem.read_writeBytes_entry_torn ht hlen _⟩,
    fun htaken hfail => ⟨_, ?_, s.mem.read_eraseBelow_entry_torn hlen _⟩⟩
  · exact exec_of_scan_to_failure hs (planLogAppend_check_legal hok) (planLogAppend_scan _) hi htaken hfail
  · obtain ⟨hsucceed, hfails⟩ := hfail
    rw [exec_logAppend_to_erase hs hok htaken fun k hk => hsucceed k (by omega),
      show 34 = 32 - i + 1 + (i + 1) by omega,
      State.runPlan_erase_to_failure (s := s.begun .logAppend) (c := .fresh .logAppend s.regs) _
        (planLogAppend_erase _) ⟨i, hi⟩ (fun k hk => hsucceed (32 + k) (Nat.add_lt_add_left hk 32)) hfails,
      State.runPlan_ioError, show 32 + i + 1 = 33 + i by omega, ← Nat.add_assoc]
    rfl
  · obtain ⟨hsucceed, hfails⟩ := hfail
    rw [exec_logAppend_to_free hs hok ⟨t, ht⟩ htaken hfree hsucceed,
      State.runPlan_entry_fails hok ⟨t, ht⟩ false _ _ _ hfails]
    rfl
  · obtain ⟨hsucceed, hfails⟩ := hfail
    rw [exec_logAppend_to_wrapped hs hok htaken hsucceed, State.runPlan_entry_fails hok 0 true _ _ 0 hfails]
    rfl

end Sys2Proof.Machine
end

section
/-! The log as a whole: the strings that a memory's slots yield, the host's read loop, and what an erase and an append make of a
well-formed log (41_log.md R170 to R172, 30_encoding.md R113; O54 to O57). -/

namespace Sys2Proof.Machine

variable {m m' : Memory}

/-! ### What a slot yields -/

theorem Memory.slotBytes_getD_zero (m : Memory) (i : Nat) : (m.slotBytes i).getD 0 0x00 = m.read (slotBase i) :=
  m.readBytes_getD (slotBase i) 0x00 (by omega)

/-- A slot that yields a string is not free. -/
theorem Memory.not_freeSlot_of_item {i : Nat} (h : (m.item i).isSome) : ¬ m.FreeSlot i := by
  rw [Memory.item, Option.isSome_map] at h
  have hfirst := getD_zero_ne_of_validEntry h
  rwa [Memory.slotBytes_getD_zero] at hfirst

theorem Memory.item_eq_none_of_freeSlot {i : Nat} (h : m.FreeSlot i) : m.item i = .none :=
  Option.not_isSome_iff_eq_none.1 fun hitem => Memory.not_freeSlot_of_item hitem h

/-- What a slot yields depends on its 64 bytes alone. -/
theorem Memory.item_congr {i : Nat} (h : ∀ k, 64 * i ≤ k → k < 64 * i + 64 → m'.read k = m.read k) :
    m'.item i = m.item i := by
  have hbytes : m'.slotBytes i = m.slotBytes i := by
    refine Memory.readBytes_congr fun j hj => ?_
    rw [slotBase_eq]
    exact h _ (by omega) (by omega)
  rw [Memory.item, Memory.item, hbytes]

theorem Memory.readBytes_add (m : Memory) (a n l : Nat) :
    m.readBytes a (n + l) = m.readBytes a n ++ m.readBytes (a + n) l := by
  simp [Memory.readBytes, List.range_add, Nat.add_assoc]

/-- A slot that begins with an entry yields its message (41_log.md R147). -/
theorem Memory.item_of_entry {i : Nat} {msg : List Byte} (hmsg : LegalMessage msg)
    (h : ∀ j < msg.length + 3, m.read (64 * i + j) = (encodeEntry msg).getD j 0x00) : m.item i = some msg := by
  have hentry : m.readBytes (slotBase i) (msg.length + 3) = encodeEntry msg := by
    refine List.ext_getElem (by simp) fun j hj hj' => ?_
    rw [Memory.readBytes_getElem, slotBase_eq, h j (by simpa using hj), List.getD_eq_getElem _ _ hj']
  have hfits := hmsg.fits
  have hslot : m.slotBytes i = encodeEntry msg ++ m.readBytes (slotBase i + (msg.length + 3)) (61 - msg.length) := by
    rw [Memory.slotBytes, show 64 = msg.length + 3 + (61 - msg.length) by omega, Memory.readBytes_add, hentry]
  have hlen := m.slotBytes_length i
  rw [hslot] at hlen
  obtain ⟨hvalid, hstring⟩ := encodedEntriesAreValid msg _ hmsg.nonempty hfits hmsg.noTerminator hlen
  rw [Memory.item, hslot, hvalid, Option.map_some, hstring]

/-! ### The strings of the read sequence (41_log.md R170) -/

theorem Memory.itemsFrom_of_some {i : Nat} {x : List Byte} (k : Nat) (h : m.item i = some x) :
    m.itemsFrom (k + 1) i = x :: m.itemsFrom k (i + 1) := by simp only [Memory.itemsFrom, h]

theorem Memory.itemsFrom_of_none {i : Nat} (k : Nat) (h : m.item i = .none) : m.itemsFrom (k + 1) i = [] := by
  simp only [Memory.itemsFrom, h]

/-- The sequence from slot `i` on is the strings of the next `d` slots, when these are valid and it ends with them. -/
theorem Memory.itemsFrom_eq_filterMap {d : Nat} :
    ∀ {k i : Nat}, d ≤ k → (∀ j < d, (m.item (i + j)).isSome) → (d < k → m.item (i + d) = .none) →
      m.itemsFrom k i = (List.range' i d).filterMap m.item := by
  induction d with
  | zero =>
    intro k i _ _ hend
    cases k with
    | zero => rfl
    | succ k => exact Memory.itemsFrom_of_none k (hend (by omega))
  | succ d ih =>
    intro k i hk hvalid hend
    obtain ⟨k, rfl⟩ : ∃ l, k = l + 1 := ⟨k - 1, by omega⟩
    obtain ⟨x, hx : m.item i = some x⟩ := Option.isSome_iff_exists.1 (hvalid 0 (by omega))
    have hrest := ih (k := k) (i := i + 1) (by omega)
      (fun j hj => by rw [Nat.add_assoc, Nat.add_comm 1]; exact hvalid (j + 1) (by omega))
      (fun hd => by rw [Nat.add_assoc, Nat.add_comm 1]; exact hend (by omega))
    rw [Memory.itemsFrom_of_some k hx, hrest, List.range'_succ, List.filterMap_cons_some hx]

/-- A well-formed log of count `t` yields the strings of its first `t` slots (41_log.md R171). -/
theorem Memory.items_of_wellFormedLog {t : Nat} (h : m.WellFormedLog t) :
    m.items = (List.range t).filterMap m.item := by
  obtain ⟨ht, hvalid, hfree⟩ := h
  rw [List.range_eq_range']
  refine Memory.itemsFrom_eq_filterMap ht (fun j hj => ?_) fun hlt => ?_
  · rw [Nat.zero_add]
    exact hvalid j hj
  · rw [Nat.zero_add]
    exact Memory.item_eq_none_of_freeSlot (hfree t hlt (Nat.le_refl t))

/-! ### The host's read loop (30_encoding.md R113) -/

theorem collectItems_of_valid {s t : State} (k : Nat) (ht : exec .logReadNext s = .next t) (hv : t.regs.valid = true) :
    collectItems (k + 1) s = t.regs.buf.toList.take t.regs.len.toNat :: collectItems k t := by
  simp only [collectItems, ht, hv, if_true]

theorem collectItems_of_not_valid {s t : State} (k : Nat) (ht : exec .logReadNext s = .next t)
    (hv : t.regs.valid = false) : collectItems (k + 1) s = [] := by
  simp only [collectItems, ht, hv, Bool.false_eq_true, if_false]

/-- With `d` slots left before the end of the log, the loop collects their strings up to the first slot that is not
valid. -/
theorem collectItems_eq_itemsFrom {d : Nat} :
    ∀ {s : State}, s.seq = .idle → s.regs.ended = false → s.regs.cursor.val + d = 32 → s.NextSucceed d →
      collectItems (d + 1) s = s.mem.itemsFrom d s.regs.cursor.val := by
  induction d with
  | zero =>
    intro s hs _ hcursor _
    obtain ⟨hover, -⟩ := logReadNextResult s hs
    exact collectItems_of_not_valid 0 (hover (.inr (Fin.ext hcursor))) rfl
  | succ d ih =>
    intro s hs hended hcursor hsucceed
    obtain ⟨i, hi⟩ : ∃ i : SlotIndex, s.regs.cursor = i.castSucc := ⟨⟨s.regs.cursor.val, by omega⟩, rfl⟩
    obtain ⟨-, hslot⟩ := logReadNextResult s hs
    obtain ⟨hyields, hends, -⟩ := hslot i hended hi
    rw [hi, Fin.val_castSucc] at hcursor ⊢
    cases hv : validEntry (s.mem.slotBytes i) with
    | none =>
      obtain ⟨b, -, hnext⟩ := hends (hsucceed 0 (by omega)) hv
      have hitem : s.mem.item i = .none := by rw [Memory.item, hv, Option.map_none]
      rw [collectItems_of_not_valid (d + 1) hnext rfl, Memory.itemsFrom_of_none d hitem]
    | some k =>
      obtain ⟨b, hb, hnext⟩ := hyields k (hsucceed 0 (by omega)) hv
      obtain ⟨-, -, hk, -⟩ := (validEntry_eq_some_iff_findIdx _ k).1 hv
      have hitem : s.mem.item i = some ((s.mem.slotBytes i).take k) := by
        rw [Memory.item, hv, Option.map_some]
      have hlen : (BitVec.ofNat 8 k).toNat = k := by rw [BitVec.toNat_ofNat]; omega
      rw [collectItems_of_valid (d + 1) hnext rfl, Memory.itemsFrom_of_some d hitem]
      congr 1
      · simp only [State.after_regs, hb, hlen]
      · refine ih (State.after_seq ..) hended ?_ fun j hj => ?_
        · simp only [State.after_regs, Fin.val_succ]
          omega
        · rw [State.after_failsAt, Nat.add_comm]
          exact hsucceed (j + 1) (by omega)

/-- Settles O54: LOG_READ_RESET sets the loop at slot 0, with 32 slots left. -/
theorem readSequenceYieldsTheItems : Obligations.ReadSequenceYieldsTheItems := by
  unfold Obligations.ReadSequenceYieldsTheItems
  intro s hs hsucceed
  refine ⟨_, readResetResult s hs, collectItems_eq_itemsFrom (State.after_seq ..) rfl rfl fun j hj => ?_⟩
  rw [State.after_failsAt, Nat.zero_add]
  exact hsucceed j hj

/-! ### An erased log (41_log.md R171) -/

theorem Memory.wellFormedLog_zero_of_erased
    (h : ∀ k, m'.read k = if k < 2048 ∧ k % 64 = 0 then 0x00 else m.read k) : m'.WellFormedLog 0 := by
  refine ⟨by omega, fun i hi => absurd hi (Nat.not_lt_zero i), fun i hi _ => ?_⟩
  rw [Memory.FreeSlot, h, slotBase_eq, if_pos (by omega)]

/-- Settles O55: the first erase leaves every first byte 0x00, which the second writes again. -/
theorem eraseLeavesAnEmptyLog : Obligations.EraseLeavesAnEmptyLog := by
  unfold Obligations.EraseLeavesAnEmptyLog
  intro s hs hsucceed
  obtain ⟨hfirst, -⟩ := eraseResult s hs
  obtain ⟨mem₁, ht, hread₁⟩ := hfirst fun k hk => hsucceed k (by omega)
  obtain ⟨hsecond, -⟩ := eraseResult (s.after 32 _ mem₁) (State.after_seq ..)
  obtain ⟨mem₂, hu, hread₂⟩ := hsecond fun k hk => by
    rw [State.after_failsAt]
    exact hsucceed (32 + k) (by omega)
  have hwf : mem₁.WellFormedLog 0 := Memory.wellFormedLog_zero_of_erased hread₁
  refine ⟨_, _, ht, hwf, Memory.items_of_wellFormedLog hwf, hu, fun k => ?_⟩
  simp only [State.after_mem, hread₂, hread₁]
  split <;> rfl

/-! ### An append to a well-formed log (41_log.md R171, R172) -/

/-- The entry in the first slot after the valid ones makes one valid slot more. -/
theorem Memory.wellFormedLog_of_append {n : Nat} {msg : List Byte} (hwf : m.WellFormedLog n) (hn : n < 32)
    (hmsg : LegalMessage msg)
    (hread : ∀ k, m'.read k = if 64 * n ≤ k ∧ k < 64 * n + msg.length + 3 then (encodeEntry msg).getD (k - 64 * n) 0x00
      else m.read k) :
    m'.WellFormedLog (n + 1) ∧ m'.item n = some msg ∧ m'.items = m.items ++ [msg] := by
  have ⟨_, hvalid, hfree⟩ := hwf
  have hfits := hmsg.fits
  have hitem : m'.item n = some msg := by
    refine Memory.item_of_entry hmsg fun j hj => ?_
    rw [hread, if_pos (by omega), Nat.add_sub_cancel_left]
  have hbelow (i : Nat) (hi : i < n) : m'.item i = m.item i := by
    refine Memory.item_congr fun k _ hk => ?_
    rw [hread, if_neg (by omega)]
  have hwf' : m'.WellFormedLog (n + 1) := by
    refine ⟨hn, fun i hi => ?_, fun i hi hni => ?_⟩
    · rcases Nat.lt_succ_iff_lt_or_eq.1 hi with hlt | rfl
      · rw [hbelow i hlt]
        exact hvalid i hlt
      · rw [hitem]
        rfl
    · rw [Memory.FreeSlot, hread, slotBase_eq, if_neg (by omega)]
      exact hfree i hi (by omega)
  refine ⟨hwf', hitem, ?_⟩
  rw [Memory.items_of_wellFormedLog hwf', Memory.items_of_wellFormedLog hwf, List.range_succ, List.filterMap_append,
    List.filterMap_congr fun i hi => hbelow i (List.mem_range.1 hi), List.filterMap_cons_some hitem,
    List.filterMap_nil]

/-- The entry in slot 0 of an erased log is alone in it. -/
theorem Memory.wellFormedLog_of_wrapped {msg : List Byte} (hmsg : LegalMessage msg)
    (hread : ∀ k, m'.read k = if k < msg.length + 3 then (encodeEntry msg).getD k 0x00
      else if k < 2048 ∧ k % 64 = 0 then 0x00 else m.read k) :
    m'.WellFormedLog 1 ∧ m'.item 0 = some msg ∧ m'.items = [msg] := by
  have herased : (m.eraseBelow 32).WellFormedLog 0 := Memory.wellFormedLog_zero_of_erased m.read_eraseBelow_all
  have hempty : (m.eraseBelow 32).items = [] := Memory.items_of_wellFormedLog herased
  obtain ⟨hwf, hitem, hitems⟩ := Memory.wellFormedLog_of_append (m' := m') herased (by omega) hmsg fun k => by
    rw [hread, m.read_eraseBelow_all]
    simp
  exact ⟨hwf, hitem, by rw [hitems, hempty, List.nil_append]⟩

/-- What an append leaves of a well-formed log of count `n` with the memory `m`: the registers `r` and the memory `m'`. -/
structure AppendsTo (m : Memory) (n : Nat) (msg : List Byte) (r : Regs) (m' : Memory) : Prop where
  err : r.err = .none
  next : n < 32 → m'.WellFormedLog (n + 1) ∧ m'.item n = some msg ∧ m'.items = m.items ++ [msg] ∧ r.rslt.val = n ∧
    r.full = false
  wraps : n = 32 → m'.WellFormedLog 1 ∧ m'.item 0 = some msg ∧ m'.items = [msg] ∧ r.rslt.val = 0 ∧ r.full = true

/-- An append to a well-formed log finds the slot after the valid ones, or none. -/
theorem exec_logAppend_appendsTo {s : State} {n : Nat} (hs : s.seq = .idle) (hok : messageOK s.regs.sample = true)
    (hwf : s.mem.WellFormedLog n) (hsucceed : s.NextSucceed 65) :
    ∃ d r mem', d ≤ 65 ∧ exec .logAppend s = .next (s.after d r mem') ∧
      AppendsTo s.mem n s.regs.sample.data r mem' := by
  have ⟨hn, hvalid, hfree⟩ := hwf
  have hmsg := legalMessage_of_messageOK hok
  have htaken (j : Nat) (hj : j < n) : ¬ s.mem.FreeSlot j := Memory.not_freeSlot_of_item (hvalid j hj)
  rcases Nat.lt_or_eq_of_le hn with hlt | rfl
  · obtain ⟨hwf', hitem, hitems⟩ := Memory.wellFormedLog_of_append hwf hlt hmsg
      (s.mem.read_writeBytes_entry hlt hmsg.fits)
    have hshort : s.NextSucceed (n + 2) := fun k hk => hsucceed k (by omega)
    exact ⟨n + 2, _, _, by omega,
      exec_logAppend_free hs hok ⟨n, hlt⟩ htaken (hfree n hlt (Nat.le_refl n)) hshort,
      rfl, fun _ => ⟨hwf', hitem, hitems, rfl, rfl⟩, fun h => absurd h (Nat.ne_of_lt hlt)⟩
  · obtain ⟨hwf', hitem, hitems⟩ := Memory.wellFormedLog_of_wrapped hmsg (s.mem.read_eraseBelow_entry hmsg.fits)
    exact ⟨65, _, _, Nat.le_refl 65, exec_logAppend_full hs hok htaken hsucceed,
      rfl, fun h => absurd h (Nat.lt_irrefl 32), fun _ => ⟨hwf', hitem, hitems, rfl, rfl⟩⟩

/-- After an append the message is the last item. -/
theorem AppendsTo.getLast?_items {n : Nat} {msg : List Byte} {r : Regs} (h : AppendsTo m n msg r m') (hn : n ≤ 32) :
    m'.items.getLast? = some msg := by
  rcases Nat.lt_or_eq_of_le hn with hlt | heq
  · obtain ⟨-, -, hitems, -⟩ := h.next hlt
    rw [hitems, List.getLast?_concat]
  · obtain ⟨-, -, hitems, -⟩ := h.wraps heq
    rw [hitems, List.getLast?_singleton]

/-- Settles O56: the entry goes into the slot after the valid ones, or into slot 0 of the erased log. -/
theorem appendKeepsTheLogWellFormed : Obligations.AppendKeepsTheLogWellFormed := by
  unfold Obligations.AppendKeepsTheLogWellFormed
  intro s n m hs hwf hm hpos hmax hbytes hsucceed
  subst hm
  obtain ⟨d, r, mem', -, ht, happ⟩ :=
    exec_logAppend_appendsTo hs ((messageOK_iff s.regs.sample).2 ⟨hpos, hmax, hbytes⟩) hwf hsucceed
  exact ⟨_, ht, happ.err, happ.next, happ.wraps⟩

/-- Settles O57: the append takes at most 65 of the 97 transactions, and the read loop yields the items it left. -/
theorem appendThenReadYieldsTheMessageLast : Obligations.AppendThenReadYieldsTheMessageLast := by
  unfold Obligations.AppendThenReadYieldsTheMessageLast
  intro s n m hs hwf hm hpos hmax hbytes hsucceed
  subst hm
  obtain ⟨d, r, mem', hd, ht, happ⟩ := exec_logAppend_appendsTo hs
    ((messageOK_iff s.regs.sample).2 ⟨hpos, hmax, hbytes⟩) hwf fun k hk => hsucceed k (by omega)
  obtain ⟨u, hu, hcollect⟩ := readSequenceYieldsTheItems (s.after d r mem') (State.after_seq ..) fun k hk => by
    rw [State.after_failsAt]
    exact hsucceed (d + k) (by omega)
  obtain ⟨hn, -⟩ := hwf
  refine ⟨_, u, ht, hu, ?_⟩
  rw [hcollect]
  exact happ.getLast?_items hn

end Sys2Proof.Machine
end

section
/-! The raw memory commands: the range check that both make, and the one transaction of each
(42_raw_memory.md R201 to R203; O43, O44, O45). -/

namespace Sys2Proof.Machine

variable {s : State} {i : Instr}

/-! ### The range check (42_raw_memory.md R201) -/

/-- ADDR as the statements write it is the address that the command samples. -/
theorem Regs.eq_sample_a {r : Regs} {a : Nat} (h : a = r.addrHi.toNat * 256 + r.addrLo.toNat) : a = r.sample.a :=
  h.trans r.addr_toNat.symm

theorem planOf_raw_check (hi : i = .memRead ∨ i = .memWrite) (o : Operands) :
    planOf i o .check = .goto (if rangeOK o.a o.n then .raw else raise .badParam) := by
  rcases hi with rfl | rfl <;> rfl

theorem exec_raw_out_of_range (hi : i = .memRead ∨ i = .memWrite) (hs : s.seq = .idle)
    (hout : ¬ rangeOK s.regs.sample.a s.regs.sample.n = true) :
    exec i s = .next (s.after 0 ((s.begun i).regs.commit { err := .badParam }) s.mem) := by
  have hcheck : planOf i s.regs.sample .check = .goto (raise .badParam) := by rw [planOf_raw_check hi, if_neg hout]
  exact exec_idle_of_check_complete hs hcheck

/-- In range, a raw command comes to its transaction. -/
theorem exec_raw_in_range (hi : i = .memRead ∨ i = .memWrite) (hs : s.seq = .idle)
    (hok : rangeOK s.regs.sample.a s.regs.sample.n = true) :
    exec i s = .next (((s.begun i).midway 0 (.fresh i s.regs) .raw s.mem 0).runPlan (planOf i) 66) :=
  exec_idle_of_check_goto hs (by rw [planOf_raw_check hi, if_pos hok])

/-- Settles O43: the check of both commands raises BAD_PARAM out of range; a block of 64 bytes that begins below the end of
memory ends there at the latest. -/
theorem rawRangeCheck : Obligations.RawRangeCheck := by
  unfold Obligations.RawRangeCheck
  intro s a n hs ha hn
  obtain rfl := Regs.eq_sample_a ha
  obtain rfl : n = s.regs.sample.n := hn
  rw [← rangeOK_iff]
  refine ⟨fun hout => ⟨exec_raw_out_of_range (.inl rfl) hs hout, exec_raw_out_of_range (.inr rfl) hs hout⟩, fun hok => ?_⟩
  obtain ⟨-, -, hinside, -⟩ := allowedTransaction_of_rangeOK hok
  exact hinside

/-! ### MEM_READ (42_raw_memory.md R202) -/

theorem planMemRead_raw {o : Operands} (hok : rangeOK o.a o.n = true) :
    planOf .memRead o .raw = .read o.a o.n fun d => .complete { buf := some (loadBuffer o.buf d) } := if_pos hok

theorem exec_memRead (hs : s.seq = .idle) (hok : rangeOK s.regs.sample.a s.regs.sample.n = true)
    (hsucceeds : s.failsAt 0 = false) :
    exec .memRead s = .next (s.after 1 ((s.begun .memRead).regs.commit
      { buf := some (loadBuffer s.regs.buf (s.mem.readBytes s.regs.sample.a s.regs.sample.n)) }) s.mem) := by
  rw [exec_raw_in_range (.inl rfl) hs hok, State.runPlan_read 65 (planMemRead_raw hok), State.begun_failsAt, hsucceeds]
  exact congrArg _ (State.runPlan_staged ..)

theorem exec_memRead_fails (hs : s.seq = .idle) (hok : rangeOK s.regs.sample.a s.regs.sample.n = true)
    (hfail : s.failsAt 0 = true) :
    exec .memRead s = .next (s.after 1 ((s.begun .memRead).regs.commit
      { err := .ioError, faddr := some (BitVec.ofNat 16 s.regs.sample.a) }) s.mem) := by
  rw [exec_raw_in_range (.inl rfl) hs hok, State.runPlan_read 65 (planMemRead_raw hok), State.begun_failsAt, hfail]
  exact congrArg _ (State.runPlan_ioError ..)

/-- Settles O44: the one read is of at most 64 bytes, so BUF takes them all and keeps the rest. -/
theorem memReadResult : Obligations.MemReadResult := by
  unfold Obligations.MemReadResult
  intro s a n hs ha hn hmem hpos hle hblock
  obtain rfl := Regs.eq_sample_a ha
  obtain rfl : n = s.regs.sample.n := hn
  have hok := (rangeOK_iff _ _).2 ⟨hmem, hpos, hle, hblock⟩
  have hlen := s.mem.readBytes_length s.regs.sample.a s.regs.sample.n
  have hbuf := loadBuffer_toList s.regs.buf (hlen.le.trans hle)
  rw [hlen] at hbuf
  exact ⟨fun hsucceeds => ⟨_, hbuf, exec_memRead hs hok hsucceeds⟩, exec_memRead_fails hs hok⟩

/-! ### MEM_WRITE (42_raw_memory.md R203) -/

theorem planMemWrite_raw {o : Operands} (hok : rangeOK o.a o.n = true) :
    planOf .memWrite o .raw = .write o.a o.data (.complete {}) := if_pos hok

theorem exec_memWrite (hs : s.seq = .idle) (hok : rangeOK s.regs.sample.a s.regs.sample.n = true)
    (hsucceeds : s.failsAt 0 = false) :
    exec .memWrite s = .next (s.after 1 ((s.begun .memWrite).regs.commit {})
      (s.mem.writeBytes s.regs.sample.a s.regs.sample.data)) := by
  rw [exec_raw_in_range (.inr rfl) hs hok, State.runPlan_write 65 (planMemWrite_raw hok), State.begun_failsAt, hsucceeds]
  exact congrArg _ (State.runPlan_staged ..)

theorem exec_memWrite_fails (hs : s.seq = .idle) (hok : rangeOK s.regs.sample.a s.regs.sample.n = true)
    (hfail : s.failsAt 0 = true) :
    exec .memWrite s = .next (s.after 1 ((s.begun .memWrite).regs.commit
      { err := .ioError, faddr := some (BitVec.ofNat 16 s.regs.sample.a) })
      (s.mem.writeBytes s.regs.sample.a (tornBytes s.draws s.regs.sample.data.length))) := by
  rw [exec_raw_in_range (.inr rfl) hs hok, State.runPlan_write 65 (planMemWrite_raw hok), State.begun_failsAt, hfail]
  exact congrArg _ (State.runPlan_ioError ..)

theorem Operands.data_getD {o : Operands} {j : Nat} (h : j < o.n) (d : Byte) :
    o.data.getD j d = o.buf.toList.getD j d := by
  simp only [Operands.data, List.getD_eq_getElem?_getD, List.getElem?_take_of_lt h]

/-- What memory holds after the write of `BUF[0..n)` at an address in range. -/
theorem Memory.read_writeBytes_data (m : Memory) {o : Operands} (hok : rangeOK o.a o.n = true) (k : Nat) :
    (m.writeBytes o.a o.data).read k =
      if o.a ≤ k ∧ k < o.a + o.n then o.buf.toList.getD (k - o.a) 0x00 else m.read k := by
  obtain ⟨-, hle, hinside, -⟩ := allowedTransaction_of_rangeOK hok
  have hlen := Operands.data_length hle
  rw [Memory.read_writeBytes m _ k (by rwa [hlen]), hlen]
  split
  next hk => exact Operands.data_getD (by omega) _
  next => rfl

/-- Settles O45: the one write stores the sampled bytes, or leaves unspecified bytes in their place. -/
theorem memWriteResult : Obligations.MemWriteResult := by
  unfold Obligations.MemWriteResult
  intro s a n hs ha hn hmem hpos hle hblock
  obtain rfl := Regs.eq_sample_a ha
  obtain rfl : n = s.regs.sample.n := hn
  have hok := (rangeOK_iff _ _).2 ⟨hmem, hpos, hle, hblock⟩
  obtain ⟨-, -, hinside, -⟩ := allowedTransaction_of_rangeOK hok
  refine ⟨fun hsucceeds => ⟨_, exec_memWrite hs hok hsucceeds, s.mem.read_writeBytes_data hok⟩,
    fun hfail => ⟨_, exec_memWrite_fails hs hok hfail, fun k => ?_⟩⟩
  rw [Operands.data_length hle, Memory.read_writeBytes_torn _ _ k hinside]

end Sys2Proof.Machine
end

section
/-! Exceptions: the error codes, which command ends with which error, and what no step does: stop the machine, change a
parameter, lose OVERRUN (60_exceptions.md R220 to R228; O14, O47, O51, O60). -/

namespace Sys2Proof.Machine

/-! ### The error codes (60_exceptions.md R221, R222) -/

theorem ErrorCode.code_toNat_le (e : ErrorCode) : e.code.toNat ≤ 4 := by
  cases e <;> decide

/-- Settles O14: what offset 0x02 reads as is the code of ERR. -/
theorem errorCodeBytes : Obligations.ErrorCodeBytes := by
  unfold Obligations.ErrorCodeBytes
  exact ⟨rfl, rfl, rfl, rfl, rfl, fun s => s.regs.err.code_toNat_le⟩

theorem exec_idle_mayEndWith {i : Instr} {s t : State} (hs : s.seq = .idle) (ht : exec i s = .next t) :
    MayEndWith i t.regs.err := by
  obtain ⟨n, g, m, hg, rfl⟩ := exec_idle_outcome hs ht
  exact hg.err

/-- Settles O47: the error is the one staged, and a command stages no other. -/
theorem errorsOfEachCommand : Obligations.ErrorsOfEachCommand := by
  unfold Obligations.ErrorsOfEachCommand
  intro i s t hs ht
  have herr := exec_idle_mayEndWith hs ht
  cases i <;> exact herr

/-! ### What comes after a state -/

/-- `u` comes after `s`: the parameters are the same, draws have only been made, and OVERRUN, once 1, is 1 unless something
of the kind `clears` has happened (60_exceptions.md R228). -/
structure State.Follows (clears : Prop) (s u : State) : Prop where
  tWc : u.tWc = s.tWc
  memInit : u.mem.init = s.mem.init
  draws : s.draws ≤ u.draws
  overrun : s.regs.overrun = true → u.regs.overrun = true ∨ clears

/-- The items of the script that clear OVERRUN: a write to STATUS with bit 6 = 1, and reset (10_state.md R23, R47). -/
def Input.ClearsOverrun : Input → Prop
  | .write off v => off = 0x01 ∧ v.getLsbD 6 = true
  | .reset _ => True
  | .read _ | .run _ | .finish | .advance | .tick => False

/-- The rest of a script does not count. -/
theorem State.follows_withInputs (clears : Prop) (s : State) (es : List Input) :
    s.Follows clears { s with inputs := es } :=
  ⟨rfl, rfl, Nat.le_refl _, .inl⟩

namespace State.Follows

variable {clears : Prop} {s u : State}

/-! ### Sequencer steps and time -/

theorem settle (h : s.Follows clears u) : s.Follows clears u.settle := ⟨h.tWc, h.memInit, h.draws, h.overrun⟩

theorem tick (h : s.Follows clears u) : s.Follows clears u.tick := ⟨h.tWc, h.memInit, h.draws, h.overrun⟩

theorem perform (h : s.Follows clears u) (c : Command) (a : Action) : s.Follows clears (u.perform c a) := by
  cases a with
  | goto _ | complete _ => exact ⟨h.tWc, h.memInit, h.draws, h.overrun⟩
  | read b n k => exact ⟨h.tWc, h.memInit, Nat.le_succ_of_le h.draws, h.overrun⟩
  | write b v q =>
    exact ⟨h.tWc, (Memory.writeBytes_init _ _ _).trans h.memInit, Nat.le_succ_of_le h.draws, h.overrun⟩

theorem advance (h : s.Follows clears u) : s.Follows clears u.advance := by
  cases hu : u.seq with
  | idle => rwa [State.advance_idle hu]
  | busy c =>
    rcases State.advance_cases hu with hadv | hadv <;> rw [hadv]
    · exact h.perform c _
    · exact h

theorem onItsOwn (h : s.Follows clears u) : s.Follows clears u.onItsOwn := by
  rcases u.onItsOwn_cases with hown | hown <;> rw [hown]
  · exact h.advance
  · exact h.tick

theorem runPlan (h : s.Follows clears u) (plan : Operands → Position → Action) (k : Nat) :
    s.Follows clears (u.runPlan plan k) :=
  State.runPlan_induct (fun _ c _ hP => hP.settle.perform c _) k u h

theorem finish (h : s.Follows clears u) : s.Follows clears u.finish := by
  cases hu : u.seq with
  | idle => rwa [State.finish_idle hu]
  | busy c => rw [State.finish_busy hu]; exact h.runPlan _ _

/-! ### The host's accesses -/

theorem accept (h : s.Follows clears u) (i : Instr) : s.Follows clears (u.accept i) :=
  ⟨h.tWc, h.memInit, h.draws, h.overrun⟩

/-- A dropped write sets OVERRUN (10_state.md R36). -/
theorem dropWrite (h : s.Follows clears u) : s.Follows clears u.dropWrite :=
  ⟨h.tWc, h.memInit, h.draws, fun _ => .inl rfl⟩

theorem exec (h : s.Follows clears u) (i : Instr) : ∃ t, exec i u = .next t ∧ s.Follows clears t := by
  cases hu : u.seq with
  | idle => exact ⟨_, exec_idle i hu, (h.accept i).runPlan _ _⟩
  | busy c => exact ⟨_, exec_busy i hu, h.dropWrite⟩

theorem writeCmd (h : s.Follows clears u) (op : Byte) : s.Follows clears (u.writeCmd op) := by
  cases hu : u.seq with
  | idle => rw [State.writeCmd_idle op hu]; exact h.accept _
  | busy c => rw [State.writeCmd_busy op hu]; exact h.dropWrite

theorem writeOperand (h : s.Follows clears u) {f : Regs → Regs} (hf : (f u.regs).overrun = u.regs.overrun) :
    s.Follows clears (u.writeOperand f) := by
  cases hu : u.seq with
  | idle => rw [State.writeOperand_idle f hu]; exact ⟨h.tWc, h.memInit, h.draws, hf ▸ h.overrun⟩
  | busy c => rw [State.writeOperand_busy f hu]; exact h.dropWrite

end State.Follows

/-- STATUS stands at one offset (10_state.md R21). -/
theorem eq_of_registerAt_eq_status {off : Byte} (h : registerAt off = .status) : off = 0x01 := by
  unfold registerAt at h
  split at h
  case h_2 hoff => exact BitVec.eq_of_toNat_eq hoff
  case h_14 => split at h <;> cases h
  all_goals cases h

/-- A write keeps OVERRUN, unless it is one to STATUS with bit 6 = 1. -/
theorem State.Follows.hostWrite {s u : State} {off v : Byte}
    (h : s.Follows (Input.write off v).ClearsOverrun u) :
    s.Follows (Input.write off v).ClearsOverrun (u.hostWrite off v) := by
  unfold State.hostWrite
  cases hreg : registerAt off with
  | cmd => exact h.writeCmd v
  | status =>
    refine ⟨h.tWc, h.memInit, h.draws, fun hs => ?_⟩
    cases hv : v.getLsbD 6 with
    | true => exact .inr ⟨eq_of_registerAt_eq_status hreg, hv⟩
    | false =>
      have hkept : (u.regs.writeStatus v).overrun = u.regs.overrun := by
        rw [Regs.writeStatus_overrun, hv, Bool.not_false, Bool.and_true]
      exact (h.overrun hs).imp_left hkept.trans
  | len | addrHi | addrLo | slot | buf j => exact h.writeOperand rfl
  | err | cursor | crcHi | crcLo | rslt | faddrHi | faddrLo | reserved => exact h

/-! ### Reset (70_reset_and_hazards.md R260 to R262) -/

theorem State.Follows.cutTransaction {clears : Prop} {s u : State} (h : s.Follows clears u) :
    s.Follows clears u.cutTransaction := by
  unfold State.cutTransaction
  split
  · exact h
  · split
    · exact ⟨h.tWc, (Memory.writeBytes_init _ _ _).trans h.memInit, Nat.le_succ_of_le h.draws, h.overrun⟩
    · exact h

theorem State.Follows.afterReset {clears : Prop} {s u : State} (h : s.Follows clears u) (hclears : clears) :
    s.Follows clears u.afterReset :=
  ⟨h.tWc, h.memInit, h.draws, fun _ => .inr hclears⟩

/-! ### Every step -/

/-- Each item of the script has a next state. -/
theorem State.Follows.onInput {s u : State} {e : Input} (h : s.Follows e.ClearsOverrun u) :
    ∃ t, u.onInput e = .next t ∧ s.Follows e.ClearsOverrun t := by
  cases e with
  | read off => exact ⟨_, rfl, h.tWc, h.memInit, h.draws, h.overrun⟩
  | write off v => exact ⟨_, rfl, h.hostWrite⟩
  | run op => exact h.exec (decodeByte op)
  | finish => exact ⟨_, rfl, h.finish⟩
  | advance => exact ⟨_, rfl, h.advance⟩
  | tick => exact ⟨_, rfl, h.tick⟩
  | reset cutting =>
    cases cutting with
    | false => exact ⟨_, rfl, h.afterReset trivial⟩
    | true => exact ⟨_, rfl, h.cutTransaction.afterReset trivial⟩

/-- Every state has a next state, and OVERRUN is lost only by the item of the script that the step takes. -/
theorem exists_step_follows (s : State) :
    ∃ t, step s = .next t ∧ s.Follows (∃ e rest, s.inputs = e :: rest ∧ e.ClearsOverrun) t := by
  cases hin : s.inputs with
  | nil =>
    refine ⟨s.onItsOwn, by simp only [step, hin], ?_⟩
    exact State.Follows.onItsOwn ⟨rfl, rfl, Nat.le_refl _, .inl⟩
  | cons e rest =>
    obtain ⟨t, ht, hfollows⟩ := (s.follows_withInputs e.ClearsOverrun rest).onInput
    refine ⟨t, (step_eq_onInput hin).trans ht, hfollows.tWc, hfollows.memInit, hfollows.draws, fun hs => ?_⟩
    exact (hfollows.overrun hs).imp_right fun hclears => ⟨e, rest, rfl, hclears⟩

/-- Settles O60: the next state follows. -/
theorem stepAlwaysGoesOnAndKeepsTheParameters : Obligations.StepAlwaysGoesOnAndKeepsTheParameters := by
  unfold Obligations.StepAlwaysGoesOnAndKeepsTheParameters
  intro s
  obtain ⟨t, ht, hfollows⟩ := exists_step_follows s
  exact ⟨t, ht, hfollows.tWc, hfollows.memInit, hfollows.draws⟩

/-- Settles O51: the item of the script that cleared OVERRUN is one of the two that can. -/
theorem overrunIsSticky : Obligations.OverrunIsSticky := by
  unfold Obligations.OverrunIsSticky
  intro s t hs ht hcleared
  obtain ⟨t', ht', hfollows⟩ := exists_step_follows s
  rw [ht] at ht'
  cases ht'
  rcases hfollows.overrun hs with hstays | ⟨e, rest, hin, hclears⟩
  · exact absurd hstays (by simp [hcleared])
  · cases e with
    | write off v =>
      obtain ⟨rfl, hbit⟩ := hclears
      exact .inl ⟨v, rest, hin, hbit⟩
    | reset cutting => exact .inr ⟨cutting, rest, hin⟩
    | read _ | run _ | finish | advance | tick => exact hclears.elim

end Sys2Proof.Machine
end

section
/-! Completion within the bound on transactions (O6, O7), what time changes (O52), and the idle block (O11)
(70_reset_and_hazards.md R263, R275, R276). -/

namespace Sys2Proof.Machine

/-! ### How many transactions a command makes (70_reset_and_hazards.md R275) -/

/-- The transactions that one action issues. -/
def Action.transactionCount : Action → Nat
  | .goto _ | .complete _ => 0
  | .read _ _ _ | .write _ _ _ => 1

theorem State.perform_draws (s : State) (c : Command) (a : Action) :
    (s.perform c a).draws = s.draws + a.transactionCount := by
  cases a <;> rfl

@[simp] theorem Position.transactionsLeft_complete (i : Instr) (g : Staged) :
    Position.transactionsLeft i (.complete g) = 0 := by
  cases i <;> rfl

theorem transactionsLeft_raise (i : Instr) (e : ErrorCode) (a : Option Nat) :
    (raise e a).transactionsLeft i = 0 :=
  Position.transactionsLeft_complete i _

/-- A transaction is taken from those that are left, the failing one too. -/
theorem Action.Nearer.transactionsLeft_le {i : Instr} {p q : Position} {a : Action} (hnear : a.Nearer i p)
    (hq : a.LeadsTo q) : a.transactionCount + q.transactionsLeft i ≤ p.transactionsLeft i := by
  cases a with
  | goto q' =>
    obtain rfl := hq
    rw [transactionCount, Nat.zero_add]
    exact hnear.2
  | complete g =>
    obtain rfl := hq
    rw [transactionCount, Position.transactionsLeft_complete]
    exact Nat.zero_le _
  | read b n k =>
    obtain ⟨hk, -, hpos⟩ := hnear
    rw [transactionCount, Nat.add_comm]
    obtain rfl | ⟨bs, rfl⟩ := hq
    · rwa [transactionsLeft_raise]
    · exact (hk bs).2
  | write b v q' =>
    obtain ⟨hq', -, hpos⟩ := hnear
    rw [transactionCount, Nat.add_comm]
    obtain rfl | rfl := hq
    · rwa [transactionsLeft_raise]
    · exact hq'.2

/-- In the middle of command `i`, or at its end, the transactions made and those that are left keep within `b`. -/
structure State.DrawsWithin (i : Instr) (b : Nat) (u : State) : Prop where
  made : u.draws ≤ b
  left : ∀ c, u.seq = .busy c → u.draws + c.pos.transactionsLeft i ≤ b

theorem State.DrawsWithin.perform {i : Instr} {b : Nat} {u : State} {c : Command} (h : u.DrawsWithin i b)
    (hu : u.seq = .busy c) : (u.settle.perform c (planOf i c.ops c.pos)).DrawsWithin i b := by
  have hnear := planOf_nearer i c.ops c.pos
  have hleft := h.left c hu
  have hdraws := u.settle.perform_draws c (planOf i c.ops c.pos)
  rw [State.settle_draws] at hdraws
  rcases u.settle.perform_cases c (planOf i c.ops c.pos) with ⟨g, hg⟩ | ⟨q, hq, hseq, -⟩
  · rw [hg] at hdraws ⊢
    exact ⟨hdraws.le.trans h.made, fun d hd => nomatch hd⟩
  · have hcount := hnear.transactionsLeft_le hq
    refine ⟨by omega, fun d hd => ?_⟩
    rw [hseq] at hd
    cases hd
    simp only
    omega

/-- A running command that is left alone leaves its staged results, after at most 65 more transactions. -/
theorem State.runPlan_completes {s : State} {c : Command} (hs : s.seq = .busy c) :
    ∃ (n : Nat) (g : Staged) (m : Memory), n ≤ 65 ∧
      s.runPlan (planOf c.instr) Config.maxSteps = s.after n (s.regs.commit g) m := by
  have hmid : s.midway 0 c c.pos s.mem s.twc = s := by simp [State.midway, ← hs]
  obtain ⟨n, g, m, -, hrun, -⟩ := State.runPlan_lockstep (i := c.instr) (s := s) (s' := s) (c := c) (c' := c)
    (Q := fun _ => True) rfl rfl rfl (fun _ _ _ _ => trivial) Config.maxSteps c.pos 0 s.mem s.twc s.twc trivial
    (Position.stepsLeft_le _ _)
  rw [hmid] at hrun
  have hstart : s.DrawsWithin c.instr (s.draws + 65) := by
    refine ⟨Nat.le_add_right _ _, fun d hd => ?_⟩
    have := d.pos.transactionsLeft_le c.instr
    omega
  have hend := State.runPlan_induct (plan := planOf c.instr) (fun _ _ hu hP => hP.perform hu) Config.maxSteps s hstart
  have hmade := hend.made
  rw [hrun, State.after_draws] at hmade
  exact ⟨n, g, m, by omega, hrun⟩

/-- Settles O6: the accepted command runs to its completion. -/
theorem everyCommandCompletes : Obligations.EveryCommandCompletes := by
  unfold Obligations.EveryCommandCompletes
  intro i s hs
  obtain ⟨n, g, m, hn, hrun⟩ := State.runPlan_completes (s.accept_seq i)
  rw [exec_idle i hs, hrun]
  exact ⟨_, rfl, rfl, rfl, rfl, rfl, Nat.add_le_add_left hn _⟩

/-- Settles O7: `finish` runs the command to its completion from wherever it stands. -/
theorem runningCommandFinishes : Obligations.RunningCommandFinishes := by
  unfold Obligations.RunningCommandFinishes
  intro s c rest hs hin
  obtain ⟨n, g, m, hn, hrun⟩ := State.runPlan_completes (s := { s with inputs := rest }) hs
  rw [step_eq_onInput hin, State.onInput, State.finish_busy (s := { s with inputs := rest }) hs, hrun]
  exact ⟨_, rfl, rfl, rfl, Nat.add_le_add_left hn _, rfl⟩

/-! ### Time changes no result (70_reset_and_hazards.md R276) -/

/-- Settles O52: the two machines run the command in lockstep, and the completion waits for either timer. -/
theorem timingChangesNoResult : Obligations.TimingChangesNoResult := by
  unfold Obligations.TimingChangesNoResult
  intro i s t tWc twc hs ht
  obtain ⟨n, g, m, -, hrun, hrun'⟩ := exec_lockstep (i := i) (s := s) (s' := { s with tWc := tWc, twc := twc })
    (Q := fun _ => True) hs hs rfl rfl rfl rfl trivial fun _ _ _ _ => trivial
  rw [ht] at hrun
  cases hrun
  exact hrun'

/-! ### The idle block (70_reset_and_hazards.md R263) -/

theorem step_eq_onItsOwn {s : State} (h : s.inputs = []) : step s = .next s.onItsOwn := by
  simp only [step, h]

theorem State.onItsOwn_idle {s : State} (h : s.seq = .idle) : s.onItsOwn = s.tick := by
  simp [State.onItsOwn, State.mayAdvance, h]

/-- Settles O11: with no command running neither `advance` nor `finish` is a step of the sequencer, so only time is left. -/
theorem idleDoesNothing : Obligations.IdleDoesNothing := by
  unfold Obligations.IdleDoesNothing
  refine ⟨rfl, rfl, fun s hs => ⟨fun hin => ?_, fun rest hin => ?_, fun rest hin => ?_⟩⟩
  · rw [step_eq_onItsOwn hin, State.onItsOwn_idle hs]
    rfl
  · rw [step_eq_onInput hin, State.onInput, State.advance_idle (s := { s with inputs := rest }) hs]
  · rw [step_eq_onInput hin, State.onInput, State.finish_idle (s := { s with inputs := rest }) hs]

end Sys2Proof.Machine
end
